-- ==== Sys2Proof/Word.lean ====
section
/-! DEFINITION. Bytes, byte strings and the two fixed-width byte strings of the block (00_scope.md R12, R16;
10_state.md R31, R43). -/

namespace Sys2Proof

/-- A byte: 8 bits, bit 0 least significant (R12). -/
abbrev Byte := BitVec 8

/-- A byte string, first byte on the wire first (R12, R16). -/
abbrev Bytes := List Byte

/-- A byte string of exactly 4 bytes: `COUNTER`, `MIC` (R43), and the words of AES-128 (45 R224). -/
structure Bytes4 where
  b0 : Byte
  b1 : Byte
  b2 : Byte
  b3 : Byte
  deriving DecidableEq, Repr, Inhabited

/-- The four bytes in wire order. -/
def Bytes4.toBytes (w : Bytes4) : Bytes := [w.b0, w.b1, w.b2, w.b3]

/-- A 6-byte MAC address, `a0` the first octet in display order (10_state.md R31). -/
structure MacAddr where
  a0 : Byte
  a1 : Byte
  a2 : Byte
  a3 : Byte
  a4 : Byte
  a5 : Byte
  deriving DecidableEq, Repr, Inhabited

/-- The six octets in display order. -/
def MacAddr.toBytes (m : MacAddr) : Bytes := [m.a0, m.a1, m.a2, m.a3, m.a4, m.a5]

end Sys2Proof
end

