-- ==== Sys2Proof/Machine/Aes.lean ====
section
/-! DEFINITION. AES-128 encryption (45_aes_ccm_reference.md R221 to R226). The state is the 4 by 4 matrix of R221 kept by
its columns, each a 4-byte word. -/

namespace Sys2Proof.Machine

/-- A 16-byte block: byte `s[r + 4c]` is row `r` of column `c` (R221). -/
structure Block where
  c0 : Bytes4
  c1 : Bytes4
  c2 : Bytes4
  c3 : Bytes4
  deriving DecidableEq, Repr, Inhabited

/-- The 16 bytes of a block in order. -/
def Block.toBytes (s : Block) : Bytes := s.c0.toBytes ++ (s.c1.toBytes ++ (s.c2.toBytes ++ s.c3.toBytes))

/-- The word at a position of a byte string, zero bytes past its end. -/
def wordAt (b : Bytes) (i : Nat) : Bytes4 := ⟨b.getD i 0, b.getD (i + 1) 0, b.getD (i + 2) 0, b.getD (i + 3) 0⟩

/-- The block at the start of a byte string, padded with zero bytes (R233, R234). -/
def blockOf (b : Bytes) : Block := ⟨wordAt b 0, wordAt b 4, wordAt b 8, wordAt b 12⟩

/-- XOR of two words, byte by byte. -/
def xorWord (u v : Bytes4) : Bytes4 := ⟨u.b0 ^^^ v.b0, u.b1 ^^^ v.b1, u.b2 ^^^ v.b2, u.b3 ^^^ v.b3⟩

/-- XOR of two blocks, byte by byte: `AddRoundKey` (R225) and the chaining of R236. -/
def xorBlock (s t : Block) : Block := ⟨xorWord s.c0 t.c0, xorWord s.c1 t.c1, xorWord s.c2 t.c2, xorWord s.c3 t.c3⟩

/-- `xtime(a)` (R222). -/
def xtime (a : Byte) : Byte := (a <<< 1) ^^^ (if 0x80 ≤ a.toNat then 0x1B else 0)

/-- `mul(a, 2)` (R222). -/
def mul2 (a : Byte) : Byte := xtime a

/-- `mul(a, 3)` (R222). -/
def mul3 (a : Byte) : Byte := xtime a ^^^ a

/-- The field product `mul(a, b)` by shift and add over the low `n` bits of `b` (R222). -/
def gfMulBits : Nat → Byte → Byte → Byte
  | 0, _, _ => 0
  | n + 1, a, b => (if b.toNat % 2 = 1 then a else 0) ^^^ gfMulBits n (xtime a) (b >>> 1)

/-- The field product `mul(a, b)` (R222). -/
def gfMul (a b : Byte) : Byte := gfMulBits 8 a b

/-- The S-box table of R223: one number a row of the table, its sixteen columns from the most significant byte. -/
def sboxRows : List Nat :=
  [0x637c777bf26b6fc53001672bfed7ab76, 0xca82c97dfa5947f0add4a2af9ca472c0,
   0xb7fd9326363ff7cc34a5e5f171d83115, 0x04c723c31896059a071280e2eb27b275,
   0x09832c1a1b6e5aa0523bd6b329e32f84, 0x53d100ed20fcb15b6acbbe394a4c58cf,
   0xd0efaafb434d338545f9027f503c9fa8, 0x51a3408f929d38f5bcb6da2110fff3d2,
   0xcd0c13ec5f974417c4a77e3d645d1973, 0x60814fdc222a908846eeb814de5e0bdb,
   0xe0323a0a4906245cc2d3ac629195e479, 0xe7c8376d8dd54ea96c56f4ea657aae08,
   0xba78252e1ca6b4c6e8dd741f4bbd8b8a, 0x703eb5664803f60e613557b986c11d9e,
   0xe1f8981169d98e949b1e87e9ce5528df, 0x8ca1890dbfe6426841992d0fb054bb16]

/-- `SBOX[a]`: row the high hex digit of `a`, column the low one (R223). -/
def sbox (a : Byte) : Byte := BitVec.ofNat 8 (sboxRows.getD (a.toNat / 16) 0 >>> (8 * (15 - a.toNat % 16)))

/-- `SubWord` (R224). -/
def subWord (w : Bytes4) : Bytes4 := ⟨sbox w.b0, sbox w.b1, sbox w.b2, sbox w.b3⟩

/-- `RotWord` (R224). -/
def rotWord (w : Bytes4) : Bytes4 := ⟨w.b1, w.b2, w.b3, w.b0⟩

/-- `RC[1..10]` (R224). -/
def roundConstants : List Byte := [0x01, 0x02, 0x04, 0x08, 0x10, 0x20, 0x40, 0x80, 0x1B, 0x36]

/-- The round key after `k`, with its round constant: four words of R224, each from the one before it. -/
def nextRoundKey (rc : Byte) (k : Block) : Block :=
  let w0 := xorWord k.c0 (xorWord (subWord (rotWord k.c3)) ⟨rc, 0, 0, 0⟩)
  let w1 := xorWord k.c1 w0
  let w2 := xorWord k.c2 w1
  let w3 := xorWord k.c3 w2
  ⟨w0, w1, w2, w3⟩

/-- The round keys after `k`, one for each round constant left (R224). -/
def roundKeysFrom (k : Block) : List Byte → List Block
  | [] => []
  | rc :: rcs => nextRoundKey rc k :: roundKeysFrom (nextRoundKey rc k) rcs

/-- Round keys 1 to 10 of a key; round key 0 is the key (R224). -/
def roundKeys (k : Block) : List Block := roundKeysFrom k roundConstants

/-- `SubBytes` (R225). -/
def subBytes (s : Block) : Block := ⟨subWord s.c0, subWord s.c1, subWord s.c2, subWord s.c3⟩

/-- `ShiftRows` (R225): row `r` of new column `c` is row `r` of old column `c + r`. -/
def shiftRows (s : Block) : Block :=
  ⟨⟨s.c0.b0, s.c1.b1, s.c2.b2, s.c3.b3⟩, ⟨s.c1.b0, s.c2.b1, s.c3.b2, s.c0.b3⟩,
   ⟨s.c2.b0, s.c3.b1, s.c0.b2, s.c1.b3⟩, ⟨s.c3.b0, s.c0.b1, s.c1.b2, s.c2.b3⟩⟩

/-- `MixColumns` on one column (R225). -/
def mixColumn (a : Bytes4) : Bytes4 :=
  ⟨mul2 a.b0 ^^^ mul3 a.b1 ^^^ a.b2 ^^^ a.b3, a.b0 ^^^ mul2 a.b1 ^^^ mul3 a.b2 ^^^ a.b3,
   a.b0 ^^^ a.b1 ^^^ mul2 a.b2 ^^^ mul3 a.b3, mul3 a.b0 ^^^ a.b1 ^^^ a.b2 ^^^ mul2 a.b3⟩

/-- `MixColumns` (R225). -/
def mixColumns (s : Block) : Block := ⟨mixColumn s.c0, mixColumn s.c1, mixColumn s.c2, mixColumn s.c3⟩

/-- Rounds 1 to 10 (R226): the last one has no `MixColumns`. -/
def aesRounds (s : Block) : List Block → Block
  | [] => s
  | [rk] => xorBlock (shiftRows (subBytes s)) rk
  | rk :: rks => aesRounds (xorBlock (mixColumns (shiftRows (subBytes s))) rk) rks

/-- `E(K, X)` (R226). -/
def aesEncrypt (key : Block) (x : Block) : Block := aesRounds (xorBlock x key) (roundKeys key)

end Sys2Proof.Machine
end

