-- ==== Sys2Proof/Config.lean ====
section
/-! DEFINITION. What an implementation fixes: the constants of 00_scope.md R10, the registry's entry type
(42_registry.md R142), the parameters a call reads and no step writes, and the free values of
93_implementation_defined.md U1 and U6. -/

namespace Sys2Proof

/-- `SVC_PLAIN` (R10, R30). -/
def Config.svcPlain : BitVec 16 := 0x181C

/-- `SVC_ENC` (R10, R30). -/
def Config.svcEnc : BitVec 16 := 0x181E

/-- `KEY_BYTES` (R10, 44 R192). -/
def Config.keyBytes : Nat := 16

/-- `TAG_BYTES` (R10, 44 R194). -/
def Config.tagBytes : Nat := 4

/-- `CTR_BYTES` (R10, 44 R194). -/
def Config.ctrBytes : Nat := 4

/-- `MIN_ENC_LEN` (R10, 44 R193; 90_conflicts.md C2). -/
def Config.minEncLen : Nat := 15

/-- `DLEN_MAX` (R10, 30 R80). -/
def Config.dlenMax : Nat := 31

/-- `AAD`: the single associated-data byte (R10, 44 R197). -/
def Config.aad : Bytes := [0x11]

/-- The bound `2^24` that the CCM length field puts on `FRAME_LEN - 8` (10_state.md R35, 45 R230). -/
def Config.ccmLimit : Nat := 2 ^ 24

/-- The registry's declared representation of a measurement; read by no rule (42 R142). -/
inductive Representation where
  | unsignedInt
  | signedInt
  | float
  | utf8String
  deriving DecidableEq, Repr, Inhabited

/-- A registry entry (42 R142, R143): `factor` is the binary64 encoding of the source's `factor: f64`,
`decimals` is `-floor(log10 F)` of the written decimal factor `F` (41 R113). -/
structure Entry where
  id : Byte
  representation : Representation
  factor : BitVec 64
  decimals : Int
  deriving DecidableEq, Repr, Inhabited

/-- The registry ROM as the list of its entries: an id that no entry holds is an empty slot (42 R140). -/
abbrev Registry := List Entry

/-- The configuration arguments of a call (10_state.md R47): no step writes any of them.
DESIGN CHOICE (log 6): they ride in the state, so that a claim over all states is a claim for every registry and
for both values of each Bool. -/
structure Params where
  /-- `REGISTRY` (R42, 42 R140), an OPEN parameter. -/
  registry : Registry
  /-- `MAX_FRAME_LEN` (00 R10, 10 R35), an OPEN parameter. -/
  maxFrameLen : Nat
  /-- `STRING_DISCARD` (43 R169), default false. -/
  stringDiscard : Bool
  /-- `MAC_COUNTS_AS_KNOWN` (43 R178), default false. -/
  macCountsAsKnown : Bool
  deriving DecidableEq, Repr, Inhabited

/-- The fixed contents of the real block's registry: OPEN (42 R140, 93 U5), so nothing is known of it. -/
opaque Config.registry : Registry

/-- The real block's largest frame: OPEN (00 R10, D3), so nothing is known of it. -/
opaque Config.maxFrameLen : Nat

/-- The parameters of the real block: the OPEN ones unknown, the decided ones at the spec's defaults (R10). -/
def Config.params : Params where
  registry := Config.registry
  maxFrameLen := Config.maxFrameLen
  stringDiscard := false
  macCountsAsKnown := false

/-- Any binary64 NaN: its sign bit, and its fraction field less one, so that every nonzero fraction (quiet or
signalling) is some value and a zero fraction (an infinity) is none (41 R120, R124; 90_conflicts.md C12(a)).
4503599627370495 is `2^52 - 1`, the number of nonzero fractions. -/
structure NanDraw where
  neg : Bool
  fractionPred : Fin 4503599627370495
  deriving DecidableEq, Repr, Inhabited

/-- `NAN_BITS` (00 R10, 93 U1): the bits of the n-th NaN result. A free value (log 11). -/
opaque Config.nanBits : Nat → NanDraw

/-- What a record yields whose rounded value passes the largest finite binary64 (93 U6). -/
inductive OverflowChoice where
  | infinity
  | largestFinite
  | nothing
  deriving DecidableEq, Repr, Inhabited

/-- The choice of 93 U6 at the n-th draw. A free value (log 12). -/
opaque Config.roundOverflow : Nat → OverflowChoice

end Sys2Proof
end

