-- ==== Sys2Proof/Machine/State.lean ====
section
/-! DEFINITION. The state of the block (10_state.md), the kinds of error and status (60_exceptions.md R271), the ways
a step can stop, and the state at reset (10_state.md R46, 70_reset_and_hazards.md R310). Plain data throughout. -/

namespace Sys2Proof.Machine

/-- `STATUS`, the outcome of a call (10 R41, 60 R271). -/
inductive Status where
  | ok
  | notApplicable
  | schemeUnavailable
  | missingKey
  | invalidKeyLength
  | truncatedPayload
  | authenticationFailed
  deriving DecidableEq, Repr, Inhabited

/-- The fatal kinds (60 R270, R272 to R276). -/
inductive FatalKind where
  | schemeUnavailable
  | missingKey
  | invalidKeyLength
  | truncatedPayload
  | authenticationFailed
  deriving DecidableEq, Repr

/-- The per-record kinds that `ERRORS` holds (10 R40, 60 R277 to R282). -/
inductive ErrorKind where
  | malformedControlByte
  | invalidUTF8
  | unsupportedNumericWidth
  | invalidMacLength
  deriving DecidableEq, Repr

/-- `PHASE` (10 R25). -/
inductive Phase where
  /-- No call in progress. -/
  | idle
  /-- The Decryptor runs. -/
  | opening
  /-- The TLVDecoder loop runs. -/
  | scan
  /-- The call has ended; its outputs are valid. -/
  | done
  deriving DecidableEq, Repr, Inhabited

/-- A decoded value (00 R16): a binary64 by its encoding, a text by its Unicode scalar values, or an address (log 21). -/
inductive DecodedValue where
  | number (bits : BitVec 64)
  | text (scalars : List Char)
  | macAddress (addr : MacAddr)
  deriving DecidableEq, Repr

/-- An entry of `ERRORS` (10 R40, 60 R295). -/
structure ErrorEntry where
  offset : Nat
  measurementId : Byte
  kind : ErrorKind
  deriving DecidableEq, Repr

/-- A byte addressed memory: its cells by strictly rising address, none of them holding what an unlisted address
reads as. -/
abbrev Memory := List Host.Cell

/-- `NONCE` in the format `NONCE12` (30 R84): the address, the two identifier bytes, the counter. -/
structure Nonce where
  mac : MacAddr
  id0 : Byte
  id1 : Byte
  counter : Bytes4
  deriving DecidableEq, Repr, Inhabited

/-- The call inputs (10 R30 to R36), written by the host before a call and never by the block. `KEY_LEN` is the
length of `key` (R33). -/
structure Inputs where
  /-- `SVC_ID` (R30). -/
  svcId : BitVec 16
  /-- `MAC` (R31). -/
  mac : MacAddr
  /-- `MAC_KNOWN` (R32). -/
  macKnown : Bool
  /-- `KEY`, a byte string of length `KEY_LEN` (R33, log 20). -/
  key : Bytes
  /-- `KEY_PRESENT` (R34). -/
  keyPresent : Bool
  /-- `FRAME` (R36). -/
  frame : Memory
  /-- `FRAME_LEN` (R35). -/
  frameLen : Nat
  deriving DecidableEq, Repr

/-- The working registers of one iteration (10 R21). -/
structure Work where
  /-- `CTRL`. -/
  ctrl : Byte
  /-- `DLEN`. -/
  dlen : BitVec 5
  /-- `DFMT`. -/
  dfmt : BitVec 3
  /-- `MID`. -/
  mid : Byte
  /-- `NEXT`. -/
  next : Nat
  /-- `RAW`. -/
  raw : Bytes
  deriving DecidableEq, Repr

/-- The EncryptionContext registers (10 R43). -/
structure EncContext where
  /-- `CT`. -/
  ct : Bytes
  /-- `COUNTER`. -/
  counter : Bytes4
  /-- `MIC`. -/
  mic : Bytes4
  /-- `NONCE`. -/
  nonce : Nonce
  deriving DecidableEq, Repr

/-- The flags (10 R26 to R29) and the outputs (R38 to R41). -/
structure Outputs where
  /-- `TRUNCATED` (R26). -/
  truncated : Bool
  /-- `DECRYPT_OK` (R27). -/
  decryptOk : Option Bool
  /-- `KEY_VERIFIED` (R28). -/
  keyVerified : Option Bool
  /-- `SUCCESS` (R29). -/
  success : Bool
  /-- `KNOWN_COUNT` (R29). -/
  knownCount : Nat
  /-- `RESULTS` (R38), in buffer order. -/
  results : List (Byte × DecodedValue)
  /-- `NOTICES` (R39), a set kept as a strictly rising list (log 16). -/
  notices : List Byte
  /-- `ERRORS` (R40), in buffer order. -/
  errors : List ErrorEntry
  /-- `STATUS` (R41), valid once the call has ended. -/
  status : Status
  deriving DecidableEq, Repr

/-- The whole state of the block. -/
structure State where
  /-- The configuration: no step writes it (R42, R47). -/
  cfg : Params
  /-- The call inputs: no step writes them (R47, 70 R316). -/
  inp : Inputs
  /-- `PHASE` (R25). -/
  phase : Phase
  /-- `OFFSET`, the program counter (R23). -/
  offset : Nat
  /-- The working registers (R21). -/
  work : Work
  /-- `PBUF` (R37). -/
  pbuf : Memory
  /-- `PLEN` (R37). -/
  plen : Nat
  /-- The EncryptionContext (R43). -/
  ctx : EncContext
  /-- Flags and outputs (R26 to R29, R38 to R41). -/
  out : Outputs
  /-- The model's own: how many free values have been taken (log 11). -/
  draws : Nat
  deriving DecidableEq, Repr

/-- Why the machine stops with a fault (log 22). -/
inductive Fault where
  /-- Raised by the fetch when a read would pass `PLEN` (20 R58: the read is not defined). Safe: the loop never issues
  such a read, and no step raises it. -/
  | pbufOutOfBounds
  /-- Raised by the Decryptor when a read would pass `FRAME_LEN` (20 R57: the read is not defined). Safe: the length
  test precedes every slice, and no step raises it. -/
  | frameOutOfBounds
  /-- Raised by the fetch for a control byte that no row of the opcode map takes. Safe: the nine rows take every byte
  (30 R102), and no step raises it. -/
  | noOpcodeRow
  deriving DecidableEq, Repr

/-- Why an instruction has no meaning. -/
inductive Refusal where
  /-- Answered by an arm of `exec` whose instruction has no meaning yet. Safe: nothing is claimed. -/
  | notModelled (mnemonic : String)
  /-- Answered by `DECODE_ENC` for a frame with `FRAME_LEN - 8 >= 2^24`, which the CCM length field cannot hold: the
  spec says that the model refuses it (10 R35, 92 D28, 93 U8). Safe: nothing is claimed. -/
  | ccmLengthField
  /-- Answered by a payload form whose payload has 0 or more than 31 bytes: no control byte encodes it and the decoder
  never produces it (30 R80, R86; 41 R118). Safe: no step answers it. -/
  | payloadLength
  deriving DecidableEq, Repr

/-- The working registers at reset: the spec gives no value (R46). DESIGN CHOICE, zero (log 1). -/
def Work.reset : Work where
  ctrl := 0
  dlen := 0
  dfmt := 0
  mid := 0
  next := 0
  raw := []

/-- The EncryptionContext at reset: the spec gives no value (R46). DESIGN CHOICE, zero bytes (log 3). -/
def EncContext.reset : EncContext where
  ct := []
  counter := ⟨0, 0, 0, 0⟩
  mic := ⟨0, 0, 0, 0⟩
  nonce := ⟨⟨0, 0, 0, 0, 0, 0⟩, 0, 0, ⟨0, 0, 0, 0⟩⟩

/-- The flags and outputs at reset (R46, 70 R310). `status` is unspecified there. DESIGN CHOICE, code 0 (log 4). -/
def Outputs.reset : Outputs where
  truncated := false
  decryptOk := none
  keyVerified := none
  success := false
  knownCount := 0
  results := []
  notices := []
  errors := []
  status := .ok

/-- The call inputs before the host has loaded any: the spec gives no value (R46). DESIGN CHOICE, no key, no known
address, an empty frame (log 5). -/
def Inputs.reset : Inputs where
  svcId := 0
  mac := ⟨0, 0, 0, 0, 0, 0⟩
  macKnown := false
  key := []
  keyPresent := false
  frame := []
  frameLen := 0

/-- The block at reset (10 R46, 70 R310 to R312): no call in progress, `OFFSET` 0, empty outputs. `PBUF` and `PLEN`
are unspecified there. DESIGN CHOICE, empty (log 2). -/
def State.reset : State where
  cfg := Config.params
  inp := Inputs.reset
  phase := .idle
  offset := 0
  work := Work.reset
  pbuf := []
  plen := 0
  ctx := EncContext.reset
  out := Outputs.reset
  draws := 0

end Sys2Proof.Machine
end

