-- ==== Sys2Proof/Machine/Ccm.lean ====
section
/-! DEFINITION. CCM with the block's parameters (45_aes_ccm_reference.md R230 to R241) over a block cipher given as an
argument, and `AEAD_OPEN`, `AEAD_SEAL` over AES-128 (44_decryptor.md R198). -/

namespace Sys2Proof.Machine

/-- `NONCE[0..12]` (30 R84). -/
def Nonce.toBytes (n : Nonce) : Bytes := n.mac.toBytes ++ [n.id0, n.id1] ++ n.counter.toBytes

/-- A number as 3 bytes, most significant first (R232, R235). -/
def be24 (n : Nat) : Bytes := [BitVec.ofNat 8 (n / 65536), BitVec.ofNat 8 (n / 256), BitVec.ofNat 8 n]

/-- `B_0` (R231, R232): flags `0x4A`, the nonce, the message length. -/
def ccmB0 (nonce : Nonce) (n : Nat) : Block := blockOf (0x4A :: (nonce.toBytes ++ be24 n))

/-- The counter block `A_i` (R231, R235): flags `0x02`, the nonce, the block number. -/
def ccmCounterBlock (nonce : Nonce) (i : Nat) : Block := blockOf (0x02 :: (nonce.toBytes ++ be24 i))

/-- `ceil(n / 16)` (R234). -/
def blockCount (n : Nat) : Nat := (n + 15) / 16

/-- The first `k` blocks of a byte string, padded with zero bytes (R234). -/
def blocksOf : Nat → Bytes → List Block
  | 0, _ => []
  | k + 1, b => blockOf b :: blocksOf k (b.drop 16)

/-- A byte string cut into 16-byte blocks, the last one padded (R234). -/
def paddedBlocks (b : Bytes) : List Block := blocksOf (blockCount b.length) b

/-- The associated-data blocks (R233): the length as 2 bytes most significant first, then the string. -/
def aadBlocks (aad : Bytes) : List Block :=
  paddedBlocks (BitVec.ofNat 8 (aad.length / 256) :: BitVec.ofNat 8 aad.length :: aad)

/-- The chaining of R236: `X <- E(K, X xor B)` over the blocks. -/
def cbcMac (e : Block → Block) (x : Block) : List Block → Block
  | [] => x
  | b :: bs => cbcMac e (e (xorBlock x b)) bs

/-- The raw tag `T` (R236): the first 4 bytes of the chaining over `B_0`, the associated data and the message. -/
def ccmTag (e : Block → Block) (nonce : Nonce) (aad pt : Bytes) : Bytes4 :=
  (cbcMac e (e (ccmB0 nonce pt.length)) (aadBlocks aad ++ paddedBlocks pt)).c0

/-- The keystream `S_1 || S_2 || ...` for a message of `n` bytes (R235). -/
def keystream (e : Block → Block) (nonce : Nonce) (n : Nat) : Bytes :=
  (List.range (blockCount n)).flatMap (fun i => (e (ccmCounterBlock nonce (i + 1))).toBytes)

/-- The payload XOR of R237: the same for sealing and opening. -/
def xorStream (e : Block → Block) (nonce : Nonce) (b : Bytes) : Bytes :=
  List.zipWith (fun x k => x ^^^ k) b (keystream e nonce b.length)

/-- The transmitted tag `T xor S_0[0..4]` (R238). -/
def ccmMic (e : Block → Block) (nonce : Nonce) (aad pt : Bytes) : Bytes4 :=
  xorWord (ccmTag e nonce aad pt) (e (ccmCounterBlock nonce 0)).c0

/-- CCM open over a block cipher (R240): the plaintext only if all 4 bytes of the tag agree. -/
def ccmOpen (e : Block → Block) (nonce : Nonce) (aad ct : Bytes) (mic : Bytes4) : Option Bytes :=
  let pt := xorStream e nonce ct
  if ccmMic e nonce aad pt = mic then some pt else none

/-- CCM seal over a block cipher (R241). -/
def ccmSeal (e : Block → Block) (nonce : Nonce) (aad pt : Bytes) : Bytes × Bytes4 :=
  (xorStream e nonce pt, ccmMic e nonce aad pt)

/-- `AEAD_OPEN(key, nonce, aad, ct, mic)` (44 R198, R240), for a 16-byte key: AES-128 in CCM mode (log 18). -/
def aeadOpen (key : Bytes) (nonce : Nonce) (aad ct : Bytes) (mic : Bytes4) : Option Bytes :=
  ccmOpen (aesEncrypt (blockOf key)) nonce aad ct mic

/-- `AEAD_SEAL(key, nonce, aad, pt)` (R241), for a 16-byte key. The block never seals: it is here to state the round
trip of 44 R204. -/
def aeadSeal (key : Bytes) (nonce : Nonce) (aad pt : Bytes) : Bytes × Bytes4 :=
  ccmSeal (aesEncrypt (blockOf key)) nonce aad pt

end Sys2Proof.Machine
end

