-- ==== Sys2Proof/Syntax.lean ====
section
/-! DEFINITION. The instructions: the nine record forms of 30_encoding.md R86 and the three frame-level operations
of R87, one constructor per row of spec/opcode_table.json. -/

namespace Sys2Proof

/-- An instruction. A record carries its measurement id and its payload (R81: a record has no other field); the
format code is the constructor (R86). A frame-level operation is selected by `SVC_ID` (R87). -/
inductive Instr where
  /-- `EMPTY`: no payload, any format code (43 R160). -/
  | empty (dfmt : BitVec 3) (mid : Byte)
  /-- `UINT`: format 0 (43 R161). -/
  | uint (mid : Byte) (raw : Bytes)
  /-- `SINT`: format 1 (43 R162). -/
  | sint (mid : Byte) (raw : Bytes)
  /-- `FLOAT`: format 2 (43 R163). -/
  | float (mid : Byte) (raw : Bytes)
  /-- `UTF8`: format 3 (43 R164). -/
  | utf8 (mid : Byte) (raw : Bytes)
  /-- `MACOVR`: format 4 (43 R165). -/
  | macovr (mid : Byte) (raw : Bytes)
  /-- `BAD5`: format 5 with a payload (43 R166). -/
  | bad5 (mid : Byte) (raw : Bytes)
  /-- `BAD6`: format 6 with a payload (43 R166). -/
  | bad6 (mid : Byte) (raw : Bytes)
  /-- `BAD7`: format 7 with a payload (43 R166). -/
  | bad7 (mid : Byte) (raw : Bytes)
  /-- `DECODE_PLAIN`: `SVC_ID = 0x181C` (46 R251). -/
  | decodePlain
  /-- `DECODE_ENC`: `SVC_ID = 0x181E` (46 R252). -/
  | decodeEnc
  /-- `NOT_APPLICABLE`: any other `SVC_ID` (46 R254). -/
  | notApplicable (svcId : BitVec 16)
  deriving DecidableEq, Repr

end Sys2Proof
end

