-- ==== Sys2Proof/WellFormed.lean ====
section
/-! DEFINITION. Which instructions an encoding can hold: a payload form carries 1 to 31 bytes (30_encoding.md R80,
R86) and the default frame row carries neither of the two selected identifiers (R87). -/

namespace Sys2Proof

/-- A payload length that a control byte can declare and that the `EMPTY` row does not take: 1 to 31 (R80, R86). -/
def payloadLegal (raw : Bytes) : Bool := decide (1 ≤ raw.length) && decide (raw.length ≤ Config.dlenMax)

/-- An identifier that neither `DECODE_PLAIN` nor `DECODE_ENC` takes (R87). -/
def svcUnrecognized (svcId : BitVec 16) : Bool := svcId != Config.svcPlain && svcId != Config.svcEnc

/-- A well-formed instruction: one that the encodings of 30_encoding.md can hold. -/
def Instr.wf : Instr → Bool
  | .empty _ _ => true
  | .uint _ raw => payloadLegal raw
  | .sint _ raw => payloadLegal raw
  | .float _ raw => payloadLegal raw
  | .utf8 _ raw => payloadLegal raw
  | .macovr _ raw => payloadLegal raw
  | .bad5 _ raw => payloadLegal raw
  | .bad6 _ raw => payloadLegal raw
  | .bad7 _ raw => payloadLegal raw
  | .decodePlain => true
  | .decodeEnc => true
  | .notApplicable svcId => svcUnrecognized svcId

/-- The record forms, as opposed to the frame-level operations (R86, R87). -/
def Instr.isRecord : Instr → Bool
  | .empty _ _ => true
  | .uint _ _ => true
  | .sint _ _ => true
  | .float _ _ => true
  | .utf8 _ _ => true
  | .macovr _ _ => true
  | .bad5 _ _ => true
  | .bad6 _ _ => true
  | .bad7 _ _ => true
  | .decodePlain => false
  | .decodeEnc => false
  | .notApplicable _ => false

end Sys2Proof
end

