-- ==== Sys2Proof/Decode.lean ====
section
/-! DEFINITION. Decoding: the control byte (30_encoding.md R80), the two opcode maps (R86, R87) as tables of mask and
match tested in priority order, the record decoder over a byte string and the frame selector; then the encoder,
written from the same tables. -/

namespace Sys2Proof

/-- `DLEN = CTRL[4:0]` (R80). -/
def ctrlDlen (ctrl : Byte) : BitVec 5 := ctrl.extractLsb' 0 5

/-- `DFMT = CTRL[7:5]` (R80). -/
def ctrlDfmt (ctrl : Byte) : BitVec 3 := ctrl.extractLsb' 5 3

/-- `CTRL = DFMT * 32 + DLEN` (R80). -/
def ctrlByte (dfmt : BitVec 3) (dlen : BitVec 5) : Byte := dfmt ++ dlen

/-- The record rows of R86. -/
inductive RecordRow where
  | empty
  | uint
  | sint
  | float
  | utf8
  | macovr
  | bad5
  | bad6
  | bad7
  deriving DecidableEq, Repr

/-- One line of the record-level map: a control byte belongs to the row when `ctrl &&& mask = pattern`. -/
structure RecordLine where
  row : RecordRow
  pattern : Byte
  mask : Byte
  deriving DecidableEq, Repr

/-- The record-level opcode map of R86, in the order the rows are tested. -/
def recordMap : List RecordLine :=
  [⟨.empty, 0x00, 0x1F⟩, ⟨.uint, 0x00, 0xE0⟩, ⟨.sint, 0x20, 0xE0⟩, ⟨.float, 0x40, 0xE0⟩, ⟨.utf8, 0x60, 0xE0⟩,
   ⟨.macovr, 0x80, 0xE0⟩, ⟨.bad5, 0xA0, 0xE0⟩, ⟨.bad6, 0xC0, 0xE0⟩, ⟨.bad7, 0xE0, 0xE0⟩]

/-- The row of a control byte: the first line that matches (R86). Every byte has one (R102); `none` is never taken. -/
def recordRow (ctrl : Byte) : Option RecordRow :=
  (recordMap.find? (fun l => ctrl &&& l.mask == l.pattern)).map RecordLine.row

/-- The instruction of a row, its fields cut from the record (R81): the payload forms carry the payload, `EMPTY` its
format code. -/
def rowInstr (row : RecordRow) (ctrl mid : Byte) (raw : Bytes) : Instr :=
  match row with
  | .empty => .empty (ctrlDfmt ctrl) mid
  | .uint => .uint mid raw
  | .sint => .sint mid raw
  | .float => .float mid raw
  | .utf8 => .utf8 mid raw
  | .macovr => .macovr mid raw
  | .bad5 => .bad5 mid raw
  | .bad6 => .bad6 mid raw
  | .bad7 => .bad7 mid raw

/-- Why a byte string holds no complete record at its start. -/
inductive DecodeError where
  /-- Fewer than 2 bytes: no control byte and id (43 R152). -/
  | tooShort
  /-- The declared payload passes the end of the string (43 R153). -/
  | truncated (ctrl mid : Byte)
  /-- A control byte that no row of the map takes: there is none (R102). -/
  | noRow (ctrl : Byte)
  deriving DecidableEq, Repr

/-- The record at the start of a byte string, and the bytes after it (R81, R82: the length comes from the control
byte alone). -/
def decodeRecord : Bytes → Except DecodeError (Instr × Bytes)
  | ctrl :: mid :: rest =>
    let n := (ctrlDlen ctrl).toNat
    if rest.length < n then .error (.truncated ctrl mid)
    else
      match recordRow ctrl with
      | some row => .ok (rowInstr row ctrl mid (rest.take n), rest.drop n)
      | none => .error (.noRow ctrl)
  | _ => .error .tooShort

/-- The frame-level map of R87: all 16 bits are compared (R85), the default row is last. -/
def decodeService (svcId : BitVec 16) : Instr :=
  if svcId = Config.svcPlain then .decodePlain
  else if svcId = Config.svcEnc then .decodeEnc
  else .notApplicable svcId

/-- What the two decoders of the opcode table read: record bytes in `PBUF`, or the selector `SVC_ID`. -/
inductive Code where
  | record (bytes : Bytes)
  | service (svcId : BitVec 16)
  deriving DecidableEq, Repr

/-- Decode what stands before one of the two decoders; bytes after a record are left over. -/
def decode : Code → Except DecodeError (Instr × Bytes)
  | .record bytes => decodeRecord bytes
  | .service svcId => .ok (decodeService svcId, [])

/-- The control byte, id and payload of a payload form (R80, R81). -/
def encodePayload (dfmt : BitVec 3) (mid : Byte) (raw : Bytes) : Code :=
  .record (ctrlByte dfmt (BitVec.ofNat 5 raw.length) :: mid :: raw)

/-- The code of an instruction (R80, R81, R85 to R87). -/
def encode : Instr → Code
  | .empty dfmt mid => .record [ctrlByte dfmt 0, mid]
  | .uint mid raw => encodePayload 0 mid raw
  | .sint mid raw => encodePayload 1 mid raw
  | .float mid raw => encodePayload 2 mid raw
  | .utf8 mid raw => encodePayload 3 mid raw
  | .macovr mid raw => encodePayload 4 mid raw
  | .bad5 mid raw => encodePayload 5 mid raw
  | .bad6 mid raw => encodePayload 6 mid raw
  | .bad7 mid raw => encodePayload 7 mid raw
  | .decodePlain => .service Config.svcPlain
  | .decodeEnc => .service Config.svcEnc
  | .notApplicable svcId => .service svcId

/-- The bytes a record occupies in `PBUF` (R82); none for a frame-level operation. -/
def recordBytes (i : Instr) : Bytes :=
  match encode i with
  | .record bytes => bytes
  | .service _ => []

/-- The longest record, 2 + 31 bytes (R82). -/
def longestRecord : Nat := 2 + Config.dlenMax

/-- The `n` bytes of a number, least significant first: how the opcode table numbers the bits of its rows. -/
def tableBytes (n w : Nat) : Bytes := (List.range n).map (fun i => BitVec.ofNat 8 (w / 256 ^ i))

/-- The instruction the decoder reads from a row of the opcode table: 16 bits are a value of `SVC_ID` (format
`SVC16`), any other width the first bytes of a record (format `CTRL8/REC`), every later byte zero. -/
def decodeTableWord (nbits w : Nat) : Option Instr :=
  if nbits = 16 then some (decodeService (BitVec.ofNat 16 w))
  else
    match decodeRecord (tableBytes longestRecord (w % 2 ^ nbits)) with
    | .ok (i, _) => some i
    | .error _ => none

end Sys2Proof
end

