-- ==== Sys2Proof/Machine/Flags.lean ====
section
/-! DEFINITION. The flag and status computations: `SUCCESS`, the two stop tests of the scan, the verdicts of a fatal
kind, the codes of 60_exceptions.md R271. -/

namespace Sys2Proof.Machine

/-- `SUCCESS = (KNOWN_COUNT > 0)` (10 R29). -/
def successFlag (knownCount : Nat) : Bool := decide (0 < knownCount)

/-- Step 1, clean end: fewer than 2 bytes remain (43 R152). -/
def cleanEndTest (plen offset : Nat) : Bool := decide (plen - offset < 2)

/-- Step 3, truncation: `NEXT > PLEN` (43 R153). -/
def truncationTest (plen next : Nat) : Bool := decide (plen < next)

/-- The status a fatal kind writes (60 R280). -/
def FatalKind.status : FatalKind → Status
  | .schemeUnavailable => .schemeUnavailable
  | .missingKey => .missingKey
  | .invalidKeyLength => .invalidKeyLength
  | .truncatedPayload => .truncatedPayload
  | .authenticationFailed => .authenticationFailed

/-- `KEY_VERIFIED` after a fatal kind (46 R255): only a tag that was checked refutes the key. -/
def FatalKind.keyVerified : FatalKind → Option Bool
  | .schemeUnavailable => none
  | .missingKey => none
  | .invalidKeyLength => none
  | .truncatedPayload => none
  | .authenticationFailed => some false

/-- The code of a status (60 R271). -/
def Status.code : Status → Nat
  | .ok => 0
  | .notApplicable => 1
  | .schemeUnavailable => 2
  | .missingKey => 3
  | .invalidKeyLength => 4
  | .truncatedPayload => 5
  | .authenticationFailed => 6

/-- The code of a per-record kind (60 R271); 16 is the notice `UnknownMeasurementId`, 32 stream truncation. -/
def ErrorKind.code : ErrorKind → Nat
  | .malformedControlByte => 17
  | .invalidUTF8 => 18
  | .unsupportedNumericWidth => 19
  | .invalidMacLength => 20

end Sys2Proof.Machine
end

