-- ==== Sys2Proof/Machine/Ops.lean ====
section
/-! DEFINITION. The named operations over memory and registers: reads and writes of a byte memory, the two bounded read
primitives of 00_scope.md R15, the working registers and the cursor, the output lists, the entry of a fatal and of a
per-record error (60_exceptions.md R280, R281) and its return (R294), the start and the stops of a call, and what the
host may do around a call (70_reset_and_hazards.md R315 to R319). -/

namespace Sys2Proof.Machine

/-! ### Memory -/

/-- What a byte of memory that no cell lists reads as. DESIGN CHOICE (log 14): the spec's buffers are byte strings
with no unwritten byte in them. -/
def unlistedByte : Byte := 0

/-- The canonical form: addresses strictly rise and no cell holds what an unlisted address reads as. -/
abbrev Memory.wf (m : Memory) : Prop := m.Pairwise (fun x y => x.1 < y.1) ∧ ∀ c ∈ m, c.2 ≠ unlistedByte

/-- The byte at an address. -/
def Memory.read : Memory → Nat → Byte
  | [], _ => unlistedByte
  | (x, c) :: m, a => if x = a then c else Memory.read m a

/-- Put a byte at an address, keeping the canonical form. -/
def Memory.write : Memory → Nat → Byte → Memory
  | [], a, b => if b = unlistedByte then [] else [(a, b)]
  | (x, c) :: m, a, b =>
    if a < x then (if b = unlistedByte then (x, c) :: m else (a, b) :: (x, c) :: m)
    else if a = x then (if b = unlistedByte then m else (a, b) :: m)
    else (x, c) :: Memory.write m a b

/-- Put a byte string at consecutive addresses. -/
def Memory.writeBytes (m : Memory) (a : Nat) : Bytes → Memory
  | [] => m
  | b :: bs => Memory.writeBytes (m.write a b) (a + 1) bs

/-- The memory that holds a byte string from an address on, and nothing else. -/
def Memory.ofBytes : Nat → Bytes → Memory
  | _, [] => []
  | a, b :: bs => if b = unlistedByte then Memory.ofBytes (a + 1) bs else (a, b) :: Memory.ofBytes (a + 1) bs

/-- The `n` bytes from an address on, lowest address first. -/
def Memory.span (m : Memory) (a n : Nat) : Bytes := (List.range n).map (fun i => m.read (a + i))

/-- `MemRead(addr, n)`: defined only when `addr + n <= PLEN` (00 R15, 20 R58). -/
def State.memRead (s : State) (addr n : Nat) : Option Bytes :=
  if addr + n ≤ s.plen then some (s.pbuf.span addr n) else none

/-- `MemRead(addr, 1)` as the one byte it holds. -/
def State.memByte (s : State) (addr : Nat) : Option Byte :=
  if addr + 1 ≤ s.plen then some (s.pbuf.read addr) else none

/-- `FrameRead(addr, n)`: defined only when `addr + n <= FRAME_LEN` (00 R15, 20 R57). -/
def State.frameRead (s : State) (addr n : Nat) : Option Bytes :=
  if addr + n ≤ s.inp.frameLen then some (s.inp.frame.span addr n) else none

/-- The first four bytes of a string as a 4-byte register. -/
def bytes4 (b : Bytes) : Bytes4 := ⟨b.getD 0 0, b.getD 1 0, b.getD 2 0, b.getD 3 0⟩

/-! ### The registry -/

/-- `lookup(id)` (42 R141): the entry that holds `id`, if any. -/
def lookup (r : Registry) (id : Byte) : Option Entry := r.find? (fun e => e.id == id)

/-- The registry `TR` of 42 R145: six entries, every other id absent. It is the spec's test fixture and no claim about
the real table, which stays open (`Config.registry`). -/
def testRegistry : Registry :=
  [⟨0x01, .unsignedInt, 0x3FF0000000000000, 0⟩, ⟨0x02, .signedInt, 0x3F847AE147AE147B, 2⟩,
   ⟨0x03, .unsignedInt, 0x3F847AE147AE147B, 2⟩, ⟨0x0A, .unsignedInt, 0x3F50624DD2F1A9FC, 3⟩,
   ⟨0x30, .float, 0x3FB999999999999A, 1⟩, ⟨0x31, .utf8String, 0x3FF0000000000000, 0⟩]

/-! ### Working registers and cursor -/

/-- Steps 2 and 3 of 43 R150: `CTRL`, `DLEN`, `DFMT`, `MID` from the two fetched bytes, `NEXT = OFFSET + 2 + DLEN`. -/
def State.latch (s : State) (ctrl mid : Byte) : State :=
  { s with
    work := { s.work with
      ctrl := ctrl
      dlen := ctrlDlen ctrl
      dfmt := ctrlDfmt ctrl
      mid := mid
      next := s.offset + 2 + (ctrlDlen ctrl).toNat } }

/-- The first line of step 5: `RAW` (43 R150). -/
def State.setRaw (s : State) (raw : Bytes) : State := { s with work := { s.work with raw := raw } }

/-- Step 6: `OFFSET <- NEXT` (43 R156). It is also the return from a per-record error (60 R294). -/
def State.advance (s : State) : State := { s with offset := s.work.next }

/-! ### Outputs -/

/-- Append a value to `RESULTS` under the current id (10 R38). -/
def State.appendResult (s : State) (v : DecodedValue) : State :=
  { s with out := { s.out with results := s.out.results ++ [(s.work.mid, v)] } }

/-- `KNOWN_COUNT <- KNOWN_COUNT + 1` (43 R178). -/
def State.countKnown (s : State) : State := { s with out := { s.out with knownCount := s.out.knownCount + 1 } }

/-- Insert an id in a strictly rising list, once (00 R15 `insert`). -/
def insertId (id : Byte) : List Byte → List Byte
  | [] => [id]
  | x :: xs => if id < x then id :: x :: xs else if id = x then x :: xs else x :: insertId id xs

/-- The unknown-id notice: insert the current id in `NOTICES` (60 R283). -/
def State.insertNotice (s : State) : State :=
  { s with out := { s.out with notices := insertId s.work.mid s.out.notices } }

/-- Entry of a per-record error (60 R281): append `(OFFSET, MID, kind)` to `ERRORS`, change nothing else. -/
def State.raiseRecord (s : State) (kind : ErrorKind) : State :=
  { s with out := { s.out with errors := s.out.errors ++ [⟨s.offset, s.work.mid, kind⟩] } }

/-- A free value has been taken. -/
def State.tookDraw (s : State) : State := { s with draws := s.draws + 1 }

/-! ### Start and stops of a call -/

/-- The start of a call is the block's reset (70 R310, 46 R250 first line): every register goes to its reset value but
the configuration, the inputs the host loaded and the model's draw counter. DESIGN CHOICE for the registers that R46
leaves unspecified (log 9). -/
def State.beginCall (s : State) : State := { State.reset with cfg := s.cfg, inp := s.inp, draws := s.draws }

/-- The plain fill: `PBUF <- FRAME; PLEN <- FRAME_LEN` (46 R251). -/
def State.fillPlain (s : State) : State := { s with pbuf := s.inp.frame, plen := s.inp.frameLen }

/-- The decrypted fill: `PBUF <- pt; PLEN <- FRAME_LEN - 8`, both verdicts true (44 R190, R200; 46 R252). -/
def State.fillDecrypted (s : State) (pt : Bytes) : State :=
  { s with
    pbuf := Memory.ofBytes 0 pt
    plen := s.inp.frameLen - (Config.ctrBytes + Config.tagBytes)
    out := { s.out with keyVerified := some true, decryptOk := some true } }

/-- The first line of the scan (43 R150). -/
def State.startScan (s : State) : State :=
  { s with
    phase := .scan
    offset := 0
    out := { s.out with truncated := false, results := [], notices := [], errors := [], knownCount := 0 } }

/-- Entry of a fatal error (60 R280): the status, the two verdicts (46 R255), the end of the call. -/
def State.raiseFatal (s : State) (kind : FatalKind) : State :=
  { s with
    phase := .done
    out := { s.out with status := kind.status, decryptOk := some false, keyVerified := kind.keyVerified } }

/-- The end of a scan: `SUCCESS <- (KNOWN_COUNT > 0); STATUS <- Ok` (46 R251, R252; 70 R313). Alone it is the clean end
of 43 R152. -/
def State.finishScan (s : State) : State :=
  { s with phase := .done, out := { s.out with success := successFlag s.out.knownCount, status := .ok } }

/-- `TRUNCATED <- true` (10 R26). -/
def State.setTruncated (s : State) : State := { s with out := { s.out with truncated := true } }

/-- Truncation (43 R153): the registers of steps 2 and 3 are written, `OFFSET` and `RAW` are not, the scan ends. -/
def State.stopTruncated (s : State) (ctrl mid : Byte) : State := ((s.latch ctrl mid).setTruncated).finishScan

/-- The end of a call that is not applicable: `STATUS <- NotApplicable` (46 R254). -/
def State.stopNotApplicable (s : State) : State :=
  { s with phase := .done, out := { s.out with status := .notApplicable } }

/-! ### The host -/

/-- What the host may do between calls (70 R315, R316; 60 R286): load the inputs of a new call, of at most
`MAX_FRAME_LEN` bytes (10 R35, log 26), in canonical form and with no cell past the frame. Nothing during a call (log 23). -/
def State.startCall (s : State) (inp : Inputs) : Option State :=
  if (s.phase = .idle ∨ s.phase = .done) ∧ inp.frameLen ≤ s.cfg.maxFrameLen ∧ inp.frame.wf ∧
      ∀ c ∈ inp.frame, c.1 < inp.frameLen then
    some { s with inp := inp, phase := .idle }
  else none

/-- `ParseOutcome` (10 R49). -/
structure ParseOutcome where
  results : List (Byte × DecodedValue)
  notices : List Byte
  truncated : Bool
  deriving DecidableEq, Repr

/-- The full output of a call (10 R49, 46 R255). -/
structure CallResult where
  status : Status
  outcome : Option ParseOutcome
  errors : Option (List ErrorEntry)
  decryptOk : Option Bool
  keyVerified : Option Bool
  success : Bool
  deriving DecidableEq, Repr

/-- A value that the host may read after a call (10 R48): there is nothing to read before the call has ended (70 R319,
decision D31). -/
def State.afterCall {α : Type} (s : State) (v : α) : Option α := if s.phase = .done then some v else none

/-- The full output of a call as the host reads it (10 R49, 70 R319): the ParseOutcome and `ERRORS` only with
`STATUS = Ok` (46 R255). -/
def State.callResult (s : State) : Option CallResult :=
  s.afterCall
    { status := s.out.status
      outcome := if s.out.status = .ok then some ⟨s.out.results, s.out.notices, s.out.truncated⟩ else none
      errors := if s.out.status = .ok then some s.out.errors else none
      decryptOk := s.out.decryptOk
      keyVerified := s.out.keyVerified
      success := s.out.success }

/-- `KNOWN_COUNT` as the host reads it (10 R48), beside the output tuple of 10 R49. In a call that ran no scan it is
readable too, at its value from the start of the call (10 R46). DEDUCED (log 29). -/
def State.readKnownCount (s : State) : Option Nat := s.afterCall s.out.knownCount

end Sys2Proof.Machine
end

