-- ==== Sys2Proof/Machine/Frames.lean ====
section
/-! DEFINITION. The Decryptor (44_decryptor.md) and the three frame-level operations (46_orchestrator.md R251 to R254). An
operation that opens a scan ends with the scan started: the records run in the steps that follow, and `SUCCESS` and
`STATUS` are written when the scan stops (log 10). -/

namespace Sys2Proof.Machine

/-- The nonce (44 R196): `MAC || 1E 18 || COUNTER`, the counter byte for byte as in the frame. -/
def makeNonce (mac : MacAddr) (counter : Bytes4) : Nonce := ⟨mac, 0x1E, 0x18, counter⟩

/-- The EncryptionContext of a frame (44 R194 to R196), sliced from the end. -/
def State.setContext (s : State) (ct counter mic : Bytes) : State :=
  { s with
    ctx :=
      { ct := ct
        counter := bytes4 counter
        mic := bytes4 mic
        nonce := makeNonce s.inp.mac (bytes4 counter) } }

/-- The open of a sliced frame (44 R190): a tag mismatch is fatal (R201), otherwise `PBUF` is filled and the scan
starts (R200). DESIGN CHOICE (log 30): the EncryptionContext keeps the slices and the nonce after the open, until the
next call starts; the spec says nothing of it there (10 R43). -/
def verifyAndFill (s : State) : State :=
  match aeadOpen s.inp.key s.ctx.nonce Config.aad s.ctx.ct s.ctx.mic with
  | none => s.raiseFatal .authenticationFailed
  | some pt => (s.fillDecrypted pt).startScan

/-- `AEAD_OPEN_FRAME` (44 R190), its tests in the order of R202 (log 19). A frame that the CCM length field cannot hold is
refused (10 R35, log 13). -/
def openFrame (s : State) : Host.Outcome State Fault Refusal :=
  let n := s.inp.frameLen
  let m := n - (Config.ctrBytes + Config.tagBytes)
  if s.inp.keyPresent = false then .next (s.raiseFatal .missingKey)
  else if s.inp.key.length ≠ Config.keyBytes then .next (s.raiseFatal .invalidKeyLength)
  else if n < Config.minEncLen then .next (s.raiseFatal .truncatedPayload)
  else if Config.ccmLimit ≤ m then .refused .ccmLengthField
  else
    match s.frameRead 0 m, s.frameRead m Config.ctrBytes, s.frameRead (n - Config.tagBytes) Config.tagBytes with
    | some ct, some counter, some mic => .next (verifyAndFill (s.setContext ct counter mic))
    | _, _, _ => .fault .frameOutOfBounds

/-- `PHASE <- OPEN` (10 R25). -/
def State.enterOpen (s : State) : State := { s with phase := .opening }

/-- `DECODE_PLAIN` (46 R251). -/
def execDecodePlain (s : State) : Host.Outcome State Fault Refusal := .next s.beginCall.fillPlain.startScan

/-- `DECODE_ENC` (46 R252): the address must be known before anything else is looked at (R253). -/
def execDecodeEnc (s : State) : Host.Outcome State Fault Refusal :=
  if s.inp.macKnown = false then .next (s.beginCall.enterOpen.raiseFatal .schemeUnavailable)
  else openFrame s.beginCall.enterOpen

/-- `NOT_APPLICABLE` (46 R254): no byte of the frame is read. -/
def execNotApplicable (_svcId : BitVec 16) (s : State) : Host.Outcome State Fault Refusal :=
  .next s.beginCall.stopNotApplicable

end Sys2Proof.Machine
end

