-- ==== Sys2Proof/Machine/Float64.lean ====
section
/-! DEFINITION. IEEE 754 data and the three rounded operations of 41_numeric_codec.md: `INT_TO_F64` (R114), `F64_MUL`
(R115), `ROUND_DEC` (R116). Every operation computes the exact rational and rounds it once, in `nearest`. -/

namespace Sys2Proof.Machine

/-- An IEEE 754 datum. A NaN has no bits here: they are a free value (R124), taken when a result is stored. -/
inductive Datum where
  | nan
  | inf (neg : Bool)
  /-- `(-1)^neg * mant * 2^expo`; the sign of a zero is kept. -/
  | fin (neg : Bool) (mant : Nat) (expo : Int)
  deriving DecidableEq, Repr

/-- The datum with encoding `enc` in the format with `p` fraction bits, `w` exponent bits and the given bias
(R120). -/
def datumOfFields (p w : Nat) (bias : Int) (enc : Nat) : Datum :=
  let neg := decide (enc / 2 ^ (p + w) % 2 = 1)
  let e := enc / 2 ^ p % 2 ^ w
  let f := enc % 2 ^ p
  if e = 2 ^ w - 1 then (if f = 0 then .inf neg else .nan)
  else if e = 0 then .fin neg f (1 - bias - p)
  else .fin neg (2 ^ p + f) (e - bias - p)

/-- The binary16 datum of an encoding (R120). -/
def datum16 (enc : Nat) : Datum := datumOfFields 10 5 15 enc

/-- The binary32 datum of an encoding (R120). -/
def datum32 (enc : Nat) : Datum := datumOfFields 23 8 127 enc

/-- The binary64 datum of an encoding (R120). -/
def datum64 (enc : Nat) : Datum := datumOfFields 52 11 1023 enc

/-- The integer nearest `num / den`, the even one at a tie (`den` is not 0). -/
def roundHalfEven (num den : Nat) : Nat :=
  let q := num / den
  let r := num % den
  if 2 * r < den then q
  else if den < 2 * r then q + 1
  else if q % 2 = 0 then q
  else q + 1

/-- The largest finite binary64, an integer: `(2^53 - 1) * 2^971` (R120). -/
def largestFinite : Nat := (2 ^ 53 - 1) * 2 ^ 971

/-- The exponent at which `num / den` has 53 significant bits, or -1074 for a smaller value (R120). -/
def roundingExponent (num den : Nat) : Int :=
  let e := max ((Nat.log2 num : Int) - Nat.log2 den - 53) (-1074)
  if 2 ^ 53 ≤ num * 2 ^ (-e).toNat / (den * 2 ^ e.toNat) then e + 1 else e

/-- The binary64 nearest `(-1)^neg * num / den`, ties to the even significand, infinity past the largest finite one; a
zero keeps the sign (`den` is not 0). -/
def nearest (neg : Bool) (num den : Nat) : Datum :=
  if num = 0 then .fin neg 0 (-1074)
  else
    let e := roundingExponent num den
    let k := roundHalfEven (num * 2 ^ (-e).toNat) (den * 2 ^ e.toNat)
    if k = 2 ^ 53 then (if 971 < e + 1 then .inf neg else .fin neg (2 ^ 52) (e + 1))
    else if 971 < e then .inf neg
    else .fin neg k e

/-- `INT_TO_F64(i)` (R114). -/
def intToF64 (i : Int) : Datum := nearest (decide (i < 0)) i.natAbs 1

/-- `F64_MUL(a, b)` (R115): zeros, infinities and NaN as IEEE 754 has them. -/
def f64Mul : Datum → Datum → Datum
  | .nan, _ => .nan
  | _, .nan => .nan
  | .inf a, .inf b => .inf (a != b)
  | .inf a, .fin b m _ => if m = 0 then .nan else .inf (a != b)
  | .fin a m _, .inf b => if m = 0 then .nan else .inf (a != b)
  | .fin a m e, .fin b n f => nearest (a != b) (m * n * 2 ^ (e + f).toNat) (2 ^ (-(e + f)).toNat)

/-- What `ROUND_DEC` gives: a datum, or a rounded value past the largest finite binary64, which the spec leaves open
(R116, 93 U6). -/
inductive Rounded where
  | datum (d : Datum)
  | overflow (neg : Bool)
  deriving DecidableEq, Repr

/-- The integer `k` of R116: the one nearest `x * 10^n`, the even one at a tie, for `x = mant * 2^expo`. -/
def decimalInteger (mant : Nat) (expo n : Int) : Nat :=
  roundHalfEven (mant * 2 ^ expo.toNat * 10 ^ n.toNat) (2 ^ (-expo).toNat * 10 ^ (-n).toNat)

/-- `ROUND_DEC(x, n)` (R116), by the default of the spec (log 17). -/
def roundDec (x : Datum) (n : Int) : Rounded :=
  match x with
  | .nan => .datum .nan
  | .inf neg => .datum (.inf neg)
  | .fin neg m e =>
    let num := decimalInteger m e n * 10 ^ (-n).toNat
    let den := 10 ^ n.toNat
    if largestFinite * den < num then .overflow neg else .datum (nearest neg num den)

/-- `Scale(v, factor, decimals) = ROUND_DEC(F64_MUL(v, factor), decimals)` (R117); the factor by its encoding. -/
def scale (v : Datum) (factor : BitVec 64) (decimals : Int) : Rounded :=
  roundDec (f64Mul v (datum64 factor.toNat)) decimals

/-- The sign bit of a binary64 encoding. -/
def signBit (neg : Bool) : Nat := if neg then 2 ^ 63 else 0

/-- The encoding of an infinity (R120). -/
def infBits (neg : Bool) : BitVec 64 := BitVec.ofNat 64 (signBit neg + 2047 * 2 ^ 52)

/-- The encoding of the largest finite binary64 with a sign (R120). -/
def largestBits (neg : Bool) : BitVec 64 := BitVec.ofNat 64 (signBit neg + 2047 * 2 ^ 52 - 1)

/-- The encoding of a drawn NaN: exponent all ones, fraction not 0 (R120, R124). -/
def nanBits (d : NanDraw) : BitVec 64 := BitVec.ofNat 64 (signBit d.neg + 2047 * 2 ^ 52 + (d.fractionPred.val + 1))

/-- The encoding of a finite binary64 `(-1)^neg * mant * 2^expo`, for `mant < 2^53` and, below `2^52`,
`expo = -1074` (R120). -/
def finBits (neg : Bool) (mant : Nat) (expo : Int) : BitVec 64 :=
  BitVec.ofNat 64 (signBit neg + (if mant < 2 ^ 52 then mant else (expo + 1075).toNat * 2 ^ 52 + (mant - 2 ^ 52)))

end Sys2Proof.Machine
end

