-- ==== Sys2Proof/Machine/Operands.lean ====
section
/-! DEFINITION. Operand assembly (30_encoding.md R94 to R98): integers, floats, texts and addresses from a payload. -/

namespace Sys2Proof.Machine

/-- `LE(b)` (00 R14): first byte least significant. -/
def leNat : Bytes → Nat
  | [] => 0
  | b :: bs => b.toNat + 256 * leNat bs

/-- `sext_N(v)` (00 R14). There is no `sext_0` (41 R118). -/
def sext : Nat → Nat → Option Int
  | 0, _ => none
  | n + 1, v => some (if v < 2 ^ n then (v : Int) else (v : Int) - 2 ^ (n + 1))

/-- The operand of `UINT` (R95): `LE(RAW)`, and none for an empty payload (41 R118). -/
def unsignedOperand : Bytes → Option Int
  | [] => none
  | b :: bs => some (leNat (b :: bs))

/-- The operand of `SINT` (R95): two's complement of the payload's own width, so none for an empty payload
(41 R118). -/
def signedOperand (raw : Bytes) : Option Int := sext (8 * raw.length) (leNat raw)

/-- The operand of `FLOAT` (R96): a datum for 2, 4 and 8 bytes, little-endian (20 R52), and none for any other
length. Widening to binary64 keeps the value (41 R120), so the datum is used as it is. -/
def floatOperand (raw : Bytes) : Option Datum :=
  if raw.length = 2 then some (datum16 (leNat raw))
  else if raw.length = 4 then some (datum32 (leNat raw))
  else if raw.length = 8 then some (datum64 (leNat raw))
  else none

/-- The operand of `MACOVR` (R97): six bytes reversed, and none for any other length. -/
def macOperand : Bytes → Option MacAddr
  | [r0, r1, r2, r3, r4, r5] => some ⟨r5, r4, r3, r2, r1, r0⟩
  | _ => none

/-- A byte lies between two bounds. -/
def inRange (lo hi : Nat) (b : Byte) : Bool := decide (lo ≤ b.toNat) && decide (b.toNat ≤ hi)

/-- The one-byte row of the table of 41 R127. -/
def utf8One (b1 : Byte) : Bool := inRange 0x00 0x7F b1

/-- The two-byte row of the table of 41 R127. -/
def utf8Two (b1 b2 : Byte) : Bool := inRange 0xC2 0xDF b1 && inRange 0x80 0xBF b2

/-- The three-byte rows of the table of 41 R127. -/
def utf8Three (b1 b2 b3 : Byte) : Bool :=
  ((inRange 0xE0 0xE0 b1 && inRange 0xA0 0xBF b2) || (inRange 0xE1 0xEC b1 && inRange 0x80 0xBF b2) ||
    (inRange 0xED 0xED b1 && inRange 0x80 0x9F b2) || (inRange 0xEE 0xEF b1 && inRange 0x80 0xBF b2)) &&
  inRange 0x80 0xBF b3

/-- The four-byte rows of the table of 41 R127. -/
def utf8Four (b1 b2 b3 b4 : Byte) : Bool :=
  ((inRange 0xF0 0xF0 b1 && inRange 0x90 0xBF b2) || (inRange 0xF1 0xF3 b1 && inRange 0x80 0xBF b2) ||
    (inRange 0xF4 0xF4 b1 && inRange 0x80 0x8F b2)) &&
  inRange 0x80 0xBF b3 && inRange 0x80 0xBF b4

/-- The scalar value of a two-byte sequence (41 R127). -/
def scalarTwo (b1 b2 : Byte) : Char := Char.ofNat ((b1.toNat &&& 0x1F) <<< 6 ||| (b2.toNat &&& 0x3F))

/-- The scalar value of a three-byte sequence (41 R127). -/
def scalarThree (b1 b2 b3 : Byte) : Char :=
  Char.ofNat ((b1.toNat &&& 0x0F) <<< 12 ||| (b2.toNat &&& 0x3F) <<< 6 ||| (b3.toNat &&& 0x3F))

/-- The scalar value of a four-byte sequence (41 R127). -/
def scalarFour (b1 b2 b3 b4 : Byte) : Char :=
  Char.ofNat ((b1.toNat &&& 0x07) <<< 18 ||| (b2.toNat &&& 0x3F) <<< 12 ||| (b3.toNat &&& 0x3F) <<< 6 |||
    (b4.toNat &&& 0x3F))

/-- The operand of `UTF8` (R98, 41 R126, R127): the scalar values of a well-formed string, and none for any other. -/
def textOperand : Bytes → Option (List Char)
  | [] => some []
  | b1 :: t1 =>
    if utf8One b1 then (textOperand t1).map (Char.ofNat b1.toNat :: ·)
    else
      match t1 with
      | [] => none
      | b2 :: t2 =>
        if utf8Two b1 b2 then (textOperand t2).map (scalarTwo b1 b2 :: ·)
        else
          match t2 with
          | [] => none
          | b3 :: t3 =>
            if utf8Three b1 b2 b3 then (textOperand t3).map (scalarThree b1 b2 b3 :: ·)
            else
              match t3 with
              | [] => none
              | b4 :: t4 =>
                if utf8Four b1 b2 b3 b4 then (textOperand t4).map (scalarFour b1 b2 b3 b4 :: ·) else none

/-- The UTF-8 encoding of one scalar value: the inverse of the formulas of 41 R127. -/
def utf8Char (c : Char) : Bytes :=
  let v := c.toNat
  if v < 0x80 then [BitVec.ofNat 8 v]
  else if v < 0x800 then [BitVec.ofNat 8 (0xC0 + v / 64), BitVec.ofNat 8 (0x80 + v % 64)]
  else if v < 0x10000 then
    [BitVec.ofNat 8 (0xE0 + v / 4096), BitVec.ofNat 8 (0x80 + v / 64 % 64), BitVec.ofNat 8 (0x80 + v % 64)]
  else
    [BitVec.ofNat 8 (0xF0 + v / 262144), BitVec.ofNat 8 (0x80 + v / 4096 % 64), BitVec.ofNat 8 (0x80 + v / 64 % 64),
      BitVec.ofNat 8 (0x80 + v % 64)]

/-- The UTF-8 encoding of a text. -/
def utf8Encode (t : List Char) : Bytes := t.flatMap utf8Char

end Sys2Proof.Machine
end

