-- ==== Sys2Proof/Machine/Codec.lean ====
section
/-! DEFINITION. NumericCodec (41_numeric_codec.md): the five decoders as pure functions of the payload, and the
delivery of what they give into the output lists (43_tlv_records.md R159, R165). -/

namespace Sys2Proof.Machine

/-- What a decoder gives (R110): a number before it is stored, a text, an address, or one per-record error. -/
inductive Decoded where
  | number (x : Rounded)
  | text (scalars : List Char)
  | macAddress (addr : MacAddr)
  | error (kind : ErrorKind)
  deriving DecidableEq, Repr

/-- `decodeUnsigned(RAW, factor, decimals)` (R111), the entry's `factor` and `decimals` last: none for an empty payload,
on which it is not defined (R118). -/
def decodeUnsigned (raw : Bytes) : Option (Entry → Decoded) :=
  (unsignedOperand raw).map (fun i e => .number (scale (intToF64 i) e.factor e.decimals))

/-- `decodeSigned(RAW, factor, decimals)` (R112), the entry's `factor` and `decimals` last: none for an empty payload,
on which it is not defined (R118). -/
def decodeSigned (raw : Bytes) : Option (Entry → Decoded) :=
  (signedOperand raw).map (fun i e => .number (scale (intToF64 i) e.factor e.decimals))

/-- `decodeFloat(RAW, factor, decimals)` (R119, R121). -/
def decodeFloat (raw : Bytes) (factor : BitVec 64) (decimals : Int) : Decoded :=
  match floatOperand raw with
  | some v => .number (scale v factor decimals)
  | none => .error .unsupportedNumericWidth

/-- `decodeString(RAW)` (R126). -/
def decodeString (raw : Bytes) : Decoded :=
  match textOperand raw with
  | some t => .text t
  | none => .error .invalidUTF8

/-- `decodeMacOverride(RAW)` (R130, R131). -/
def decodeMacOverride (raw : Bytes) : Decoded :=
  match macOperand raw with
  | some m => .macAddress m
  | none => .error .invalidMacLength

/-- Append a value and count it as known (43 R159). -/
def State.appendKnown (s : State) (v : DecodedValue) : State := (s.appendResult v).countKnown

/-- Append a number (43 R159). A NaN takes its bits from the free value `NAN_BITS` (R124, log 11); past the largest
finite binary64 a free choice decides between an infinity, the largest finite number and no entry (93 U6, log 12). -/
def State.deliverNumber (s : State) : Rounded → State
  | .datum .nan => (s.appendKnown (.number (nanBits (Config.nanBits s.draws)))).tookDraw
  | .datum (.inf neg) => s.appendKnown (.number (infBits neg))
  | .datum (.fin neg m e) => s.appendKnown (.number (finBits neg m e))
  | .overflow neg =>
    match Config.roundOverflow s.draws with
    | .infinity => (s.appendKnown (.number (infBits neg))).tookDraw
    | .largestFinite => (s.appendKnown (.number (largestBits neg))).tookDraw
    | .nothing => s.tookDraw

/-- Append a text, unless the parameter `STRING_DISCARD` drops it (43 R164, R169). -/
def State.deliverText (s : State) (t : List Char) : State :=
  if s.cfg.stringDiscard then s else s.appendKnown (.text t)

/-- Append an address, known only under `MAC_COUNTS_AS_KNOWN` (43 R165, R178). -/
def State.deliverMac (s : State) (m : MacAddr) : State :=
  if s.cfg.macCountsAsKnown then s.appendKnown (.macAddress m) else s.appendResult (.macAddress m)

/-- Put what a decoder gave into the outputs: a value in `RESULTS` or an error in `ERRORS` (43 R159, R165). -/
def State.deliver (s : State) : Decoded → State
  | .number x => s.deliverNumber x
  | .text t => s.deliverText t
  | .macAddress m => s.deliverMac m
  | .error kind => s.raiseRecord kind

end Sys2Proof.Machine
end

