-- ==== Sys2Proof/Machine/Records.lean ====
section
/-! DEFINITION. The meanings of the nine record forms (43_tlv_records.md R160 to R166): steps 2 to 6 of the loop of R150
for a record that is complete. -/

namespace Sys2Proof.Machine

/-- The state of a record whose arm of step 5 gave `t`: of `t` only the outputs (and the draw counter) are taken, since
a record writes nothing else there (10 R48). -/
def State.takeOutputs (s t : State) : State := { s with out := t.out, draws := t.draws }

/-- Steps 2 to 5 of R150 around the arm of a payload form: the working registers, `RAW`, then the arm
(log 27). -/
def runArm (ctrl mid : Byte) (raw : Bytes) (arm : State → State) (s : State) : State :=
  ((s.latch ctrl mid).setRaw raw).takeOutputs (arm ((s.latch ctrl mid).setRaw raw))

/-- A payload form: steps 2 to 5, then `OFFSET <- NEXT` (R150). A payload that no control byte can declare is no record
(30 R80, R86; 41 R118): it is refused (log 15). -/
def payloadRecord (dfmt : BitVec 3) (mid : Byte) (raw : Bytes) (arm : State → State) (s : State) :
    Host.Outcome State Fault Refusal :=
  if payloadLegal raw then
    .next (runArm (ctrlByte dfmt (BitVec.ofNat 5 raw.length)) mid raw arm s).advance
  else .refused .payloadLength

/-- The registry path of step 5 (R159): look the id up first; a missing id is a notice and nothing is decoded. The
entry's representation is not read (R167). -/
def registryPath (dec : Entry → Decoded) (s : State) : State :=
  match lookup s.cfg.registry s.work.mid with
  | none => s.insertNotice
  | some e => s.deliver (dec e)

/-- An integer record: its decoder on the registry path of a payload form. On an empty payload the decoder is not
defined and the loop never comes to it (41 R118): refused like any payload that is no record (log 15). -/
def integerRecord (dfmt : BitVec 3) (mid : Byte) (raw : Bytes) (dec : Option (Entry → Decoded)) (s : State) :
    Host.Outcome State Fault Refusal :=
  match dec with
  | some d => payloadRecord dfmt mid raw (registryPath d) s
  | none => .refused .payloadLength

/-- `EMPTY` (R160, R154): the record is consumed, nothing is looked up, decoded or reported. -/
def execEmpty (dfmt : BitVec 3) (mid : Byte) (s : State) : Host.Outcome State Fault Refusal :=
  .next (s.latch (ctrlByte dfmt 0) mid).advance

/-- `UINT` (R161). -/
def execUint (mid : Byte) (raw : Bytes) (s : State) : Host.Outcome State Fault Refusal :=
  integerRecord 0 mid raw (decodeUnsigned raw) s

/-- `SINT` (R162). -/
def execSint (mid : Byte) (raw : Bytes) (s : State) : Host.Outcome State Fault Refusal :=
  integerRecord 1 mid raw (decodeSigned raw) s

/-- `FLOAT` (R163). -/
def execFloat (mid : Byte) (raw : Bytes) (s : State) : Host.Outcome State Fault Refusal :=
  payloadRecord 2 mid raw (registryPath (fun e => decodeFloat raw e.factor e.decimals)) s

/-- `UTF8` (R164): the entry's factor and decimals are not used. -/
def execUtf8 (mid : Byte) (raw : Bytes) (s : State) : Host.Outcome State Fault Refusal :=
  payloadRecord 3 mid raw (registryPath (fun _ => decodeString raw)) s

/-- `MACOVR` (R165): no registry lookup, no notice (R172). -/
def execMacovr (mid : Byte) (raw : Bytes) (s : State) : Host.Outcome State Fault Refusal :=
  payloadRecord 4 mid raw (fun s => s.deliver (decodeMacOverride raw)) s

/-- `BAD5` (R166). -/
def execBad5 (mid : Byte) (raw : Bytes) (s : State) : Host.Outcome State Fault Refusal :=
  payloadRecord 5 mid raw (fun s => s.raiseRecord .malformedControlByte) s

/-- `BAD6` (R166). -/
def execBad6 (mid : Byte) (raw : Bytes) (s : State) : Host.Outcome State Fault Refusal :=
  payloadRecord 6 mid raw (fun s => s.raiseRecord .malformedControlByte) s

/-- `BAD7` (R166). -/
def execBad7 (mid : Byte) (raw : Bytes) (s : State) : Host.Outcome State Fault Refusal :=
  payloadRecord 7 mid raw (fun s => s.raiseRecord .malformedControlByte) s

end Sys2Proof.Machine
end

