-- ==== Sys2Proof/Machine/Dispatch.lean ====
section
/-! DEFINITION. One arm per instruction: the call of its meaning. -/

namespace Sys2Proof.Machine

def exec (i : Instr) (s : State) : Host.Outcome State Fault Refusal :=
  match i with
  -- records (30_encoding.md R86)
  | .empty dfmt mid => Sys2Proof.Machine.execEmpty dfmt mid s
  | .uint mid raw => Sys2Proof.Machine.execUint mid raw s
  | .sint mid raw => Sys2Proof.Machine.execSint mid raw s
  | .float mid raw => Sys2Proof.Machine.execFloat mid raw s
  | .utf8 mid raw => Sys2Proof.Machine.execUtf8 mid raw s
  | .macovr mid raw => Sys2Proof.Machine.execMacovr mid raw s
  | .bad5 mid raw => Sys2Proof.Machine.execBad5 mid raw s
  | .bad6 mid raw => Sys2Proof.Machine.execBad6 mid raw s
  | .bad7 mid raw => Sys2Proof.Machine.execBad7 mid raw s
  -- frame-level operations (30_encoding.md R87)
  | .decodePlain => Sys2Proof.Machine.execDecodePlain s
  | .decodeEnc => Sys2Proof.Machine.execDecodeEnc s
  | .notApplicable svcId => Sys2Proof.Machine.execNotApplicable svcId s

end Sys2Proof.Machine
end

