-- ==== Sys2Proof/Machine/Fetch.lean ====
section
/-! DEFINITION. What the next step does: the start of a call (46_orchestrator.md R250), the Decryptor, the fetch and the
stop tests of the scan (43_tlv_records.md R150 steps 1 to 3), rest after the end of a call. -/

namespace Sys2Proof.Machine

/-- What the next step does: run an instruction, or answer by itself. -/
inductive Action where
  | run (i : Instr)
  | answer (o : Host.Outcome State Fault Refusal)

/-- One pass of the scan loop up to its dispatch (43 R150): the clean-end test before any byte is read (R152), the
control byte and the id, the truncation test before any payload byte is read (R153), the payload. -/
def State.fetchRecord (s : State) : Action :=
  if cleanEndTest s.plen s.offset then .answer (.next s.finishScan)
  else
    match s.memByte s.offset, s.memByte (s.offset + 1) with
    | some ctrl, some mid =>
      let n := (ctrlDlen ctrl).toNat
      if truncationTest s.plen (s.offset + 2 + n) then .answer (.next (s.stopTruncated ctrl mid))
      else
        match s.memRead (s.offset + 2) n, recordRow ctrl with
        | some raw, some row => .run (rowInstr row ctrl mid raw)
        | none, _ => .answer (.fault .pbufOutOfBounds)
        | _, none => .answer (.fault .noOpcodeRow)
    | _, _ => .answer (.fault .pbufOutOfBounds)

/-- The next action by phase (10 R25): a loaded call starts with the operation that `SVC_ID` selects (46 R250, log 7);
an ended call stays ended, its outputs stable (93 U12, log 8). -/
def State.nextAction (s : State) : Action :=
  match s.phase with
  | .idle => .run (decodeService s.inp.svcId)
  | .opening => .answer (openFrame s)
  | .scan => s.fetchRecord
  | .done => .answer (.next s)

/-- Put a row of the opcode table where the next step fetches: a selector in `SVC_ID` of a loaded call, a record in
`PBUF` at `OFFSET` of a running scan (log 7). -/
def State.placeWord (s : State) (nbits w : Nat) : State :=
  if nbits = 16 then { s with inp := { s.inp with svcId := BitVec.ofNat 16 w }, phase := .idle }
  else
    { s with
      phase := .scan
      pbuf := s.pbuf.writeBytes s.offset (tableBytes longestRecord (w % 2 ^ nbits))
      plen := max s.plen (s.offset + longestRecord) }

end Sys2Proof.Machine
end

