-- ==== Sys2Proof/Safety.lean ====
section
/-! DEFINITION. The terms the statements use: when a registry is well formed (42_registry.md R143), what an append of a
number is (41_numeric_codec.md R116, R124), what a call's outputs must agree on (46_orchestrator.md R255), where the
plaintext of a scan comes from (20_memory.md R70), the invariant of the machine, and the run of a list of records. -/

namespace Sys2Proof.Machine

/-! ### The registry -/

/-- `factor` is a finite binary64 greater than 0 (42 R143). -/
def factorValid (e : Entry) : Prop := ∃ m x, datum64 e.factor.toNat = .fin false m x ∧ 0 < m

/-- `decimals = -floor(log10 F)` for a written decimal `F = c / 10^k` whose nearest binary64 is `factor` (42 R143,
41 R113): `1 <= F * 10^decimals < 10`. -/
def decimalsImplied (e : Entry) : Prop :=
  ∃ c k : Nat, 0 < c ∧ datum64 e.factor.toNat = nearest false c (10 ^ k) ∧
    10 ^ k * 10 ^ (-e.decimals).toNat ≤ c * 10 ^ e.decimals.toNat ∧
    c * 10 ^ e.decimals.toNat < 10 * (10 ^ k * 10 ^ (-e.decimals).toNat)

/-- A well-formed registry (42 R140, R143): ids are unique, factors valid, decimals as the factors imply. -/
def registryWellFormed (r : Registry) : Prop :=
  (r.map Entry.id).Nodup ∧ ∀ e ∈ r, factorValid e ∧ decimalsImplied e

/-! ### Values -/

/-- A binary64 encoding is a NaN: exponent field all ones, fraction not 0 (41 R120). -/
def isNan64 (b : BitVec 64) : Prop := b.toNat / 2 ^ 52 % 2 ^ 11 = 2047 ∧ b.toNat % 2 ^ 52 ≠ 0

/-- The rational value of a finite datum (41 R120); 0 for the others. -/
def Datum.value : Datum → ℚ
  | .nan => 0
  | .inf _ => 0
  | .fin neg m e => (if neg then -1 else 1) * m * (2 : ℚ) ^ e

/-- A finite binary64 in the one form its encoding gives it (41 R120): 53 significant bits, or the least exponent. -/
def binary64Form (m : Nat) (e : Int) : Prop :=
  m < 2 ^ 53 ∧ -1074 ≤ e ∧ e ≤ 971 ∧ (2 ^ 52 ≤ m ∨ e = -1074)

/-- The outputs `o'` are `o` with one value appended under `id` and counted as known (43 R159). -/
def appendsKnown (o o' : Outputs) (id : Byte) (v : DecodedValue) : Prop :=
  o' = { o with results := o.results ++ [(id, v)], knownCount := o.knownCount + 1 }

/-- The outputs after a number has been stored (43 R159): a finite value or an infinity by its encoding, some NaN
(41 R124), and past the largest finite binary64 one of the three outcomes of 93 U6. -/
def storesNumber (o o' : Outputs) (id : Byte) : Rounded → Prop
  | .datum .nan => ∃ b, isNan64 b ∧ appendsKnown o o' id (.number b)
  | .datum (.inf neg) => appendsKnown o o' id (.number (infBits neg))
  | .datum (.fin neg m e) => appendsKnown o o' id (.number (finBits neg m e))
  | .overflow neg =>
    o' = o ∨ appendsKnown o o' id (.number (infBits neg)) ∨ appendsKnown o o' id (.number (largestBits neg))

/-- `s` and `t` agree on all that no record writes (10 R48): configuration, inputs and every byte of `FRAME`, phase,
every byte of `PBUF`, `PLEN`, the EncryptionContext, and the flags and status a record does not touch. -/
def sameButRecord (s t : State) : Prop :=
  t.cfg = s.cfg ∧ t.inp = s.inp ∧ t.phase = s.phase ∧ t.plen = s.plen ∧ t.ctx = s.ctx ∧
    (∀ a, t.inp.frame.read a = s.inp.frame.read a) ∧ (∀ a, t.pbuf.read a = s.pbuf.read a) ∧
    t.out.truncated = s.out.truncated ∧ t.out.decryptOk = s.out.decryptOk ∧
    t.out.keyVerified = s.out.keyVerified ∧ t.out.success = s.out.success ∧ t.out.status = s.out.status

/-! ### Outputs by status -/

/-- The verdicts that a running or ended call shows (46 R255), by scheme and status. -/
def verdictsAgree (s : State) : Prop :=
  (s.phase = .scan ∨ (s.phase = .done ∧ s.out.status = .ok) →
    (s.inp.svcId = Config.svcPlain ∧ s.out.decryptOk = none ∧ s.out.keyVerified = none) ∨
    (s.inp.svcId = Config.svcEnc ∧ s.out.decryptOk = some true ∧ s.out.keyVerified = some true)) ∧
  (s.phase = .done → s.out.status = .notApplicable →
    s.inp.svcId ≠ Config.svcPlain ∧ s.inp.svcId ≠ Config.svcEnc ∧ s.out.decryptOk = none ∧
      s.out.keyVerified = none) ∧
  (s.phase = .done → s.out.status ≠ .ok → s.out.status ≠ .notApplicable →
    s.inp.svcId = Config.svcEnc ∧ s.out.decryptOk = some false ∧
      s.out.keyVerified = if s.out.status = .authenticationFailed then some false else none) ∧
  (s.phase = .opening → s.inp.svcId = Config.svcEnc)

/-- The slices of an encrypted frame (44 R194) and its nonce (44 R196). -/
def opensTo (s : State) (pt : Bytes) : Prop :=
  ∃ ct counter mic, s.frameRead 0 (s.inp.frameLen - 8) = some ct ∧
    s.frameRead (s.inp.frameLen - 8) 4 = some counter ∧ s.frameRead (s.inp.frameLen - 4) 4 = some mic ∧
    aeadOpen s.inp.key (makeNonce s.inp.mac (bytes4 counter)) [0x11] ct (bytes4 mic) = some pt

/-- Where the plaintext of a scan comes from (20 R70, 10 R37): the plain frame itself, or the frame opened under the
key with its tag verified. -/
def plaintextAuthentic (s : State) : Prop :=
  s.phase = .scan ∨ (s.phase = .done ∧ s.out.status = .ok) →
    (s.inp.svcId = Config.svcPlain ∧ s.plen = s.inp.frameLen ∧ ∀ a, s.pbuf.read a = s.inp.frame.read a) ∨
    (s.inp.svcId = Config.svcEnc ∧ ∃ pt, opensTo s pt ∧ s.memRead 0 s.plen = some pt ∧ s.plen = pt.length)

/-! ### The invariant -/

/-- What holds in every state of a run. -/
structure State.Inv (s : State) : Prop where
  /-- `FRAME` is in the canonical form. -/
  frameForm : s.inp.frame.wf
  /-- `PBUF` is in the canonical form. -/
  pbufForm : s.pbuf.wf
  /-- `OFFSET <= PLEN` (10 R24). -/
  cursorInside : s.offset ≤ s.plen
  /-- `NOTICES` is a set (10 R39). -/
  noticesRising : s.out.notices.Pairwise (· < ·)
  /-- At most one entry of `RESULTS` or `ERRORS` a record, and a record has at least 2 bytes (43 R157, R168). -/
  entriesBounded : 2 * (s.out.results.length + s.out.errors.length) ≤ s.offset
  /-- Every known value is an entry of `RESULTS` (43 R178). -/
  knownBounded : s.out.knownCount ≤ s.out.results.length
  /-- An error names a record before the cursor (60 R281). -/
  errorsBehind : ∀ e ∈ s.out.errors, e.offset + 2 ≤ s.offset
  /-- While the Decryptor runs no output has been touched (60 R280). -/
  openingFresh : s.phase = .opening → s.out = Outputs.reset
  /-- Truncation and success are outcomes of an ended scan (10 R26, R29). -/
  scanRunning : s.phase = .scan → s.out.truncated = false ∧ s.out.success = false
  /-- `SUCCESS = (KNOWN_COUNT > 0)` at the end of a scan (10 R29). -/
  doneOk : s.phase = .done → s.out.status = .ok → s.out.success = decide (0 < s.out.knownCount)
  /-- No partial result with any other status (60 R280, 46 R255). -/
  doneOther : s.phase = .done → s.out.status ≠ .ok →
    s.out.results = [] ∧ s.out.notices = [] ∧ s.out.errors = [] ∧ s.out.truncated = false ∧ s.out.success = false
  /-- The verdicts of 46 R255. -/
  verdicts : verdictsAgree s

/-! ### Runs of records -/

/-- Execute a list of instructions one after the other, stopping at the first that gives no next state. -/
def execList : List Instr → State → Host.Outcome State Fault Refusal
  | [], s => .next s
  | i :: is, s =>
    match exec i s with
    | .next t => execList is t
    | .fault f => .fault f
    | .refused r => .refused r

/-- `k` steps of the block, stopping at the first fault or refusal. -/
def runSteps (k : Nat) (s : State) : Host.Outcome State Fault Refusal := Host.Core.run Sys2Proof.core k s

/-- The bytes of a stream of records (20 R61). -/
def streamBytes (is : List Instr) : Bytes := is.flatMap recordBytes

end Sys2Proof.Machine
end

