-- ==== Sys2Proof/Certificates/Slice0/Obligations.lean ====
section
/-! DEFINITION. The statements for the provers. Each docstring names the rules it comes from; a clause that rests on a
choice of the model names its log entry. -/

open Sys2Proof Sys2Proof.Machine

/-! ### Reset and the start of a call -/

/-- 10_state.md R46, 70_reset_and_hazards.md R310: the values the spec gives at the start of a call, at reset and at
every later start of a call, whatever the state was; the inputs and the configuration stay. -/
def Obligations.StartOfCallHasTheStatedValues : Prop :=
  ∀ s : State, ∀ r ∈ [State.reset, s.beginCall],
    r.phase = .idle ∧ r.offset = 0 ∧ r.out.truncated = false ∧ r.out.knownCount = 0 ∧ r.out.results = [] ∧
      r.out.notices = [] ∧ r.out.errors = [] ∧ r.out.decryptOk = none ∧ r.out.keyVerified = none ∧
      r.out.success = false ∧ s.beginCall.inp = s.inp ∧ s.beginCall.cfg = s.cfg

/-- 10_state.md R44, 20_memory.md R67, 70_reset_and_hazards.md R310: whatever happened before, a call goes the same way
from the same inputs and configuration. `draws` is the model's own counter of free values (log 11); that the registers
R46 leaves unspecified agree too is the model's choice (log 9). -/
def Obligations.CallDependsOnlyOnItsInputs : Prop :=
  ∀ (s t : State) (k : Nat), s.phase = .idle → t.phase = .idle → s.inp = t.inp → s.cfg = t.cfg →
    s.draws = t.draws → runSteps (k + 1) s = runSteps (k + 1) t

/-! ### One step -/

/-- 43_tlv_records.md R150, R155: when the bytes from the cursor on decode to a record, the step of a scan is that
record's execution, with nothing around it. -/
def Obligations.StepRunsTheDecodedRecord : Prop :=
  ∀ (s : State) (bytes : Bytes) (i : Instr) (rest : Bytes), s.phase = .scan →
    s.memRead s.offset (s.plen - s.offset) = some bytes → decodeRecord bytes = .ok (i, rest) →
    step s = exec i s

/-- 46_orchestrator.md R250: a loaded call starts with the operation its identifier selects. That a step of the idle
block starts the call is the model's choice (log 7). -/
def Obligations.StepStartsTheSelectedOperation : Prop :=
  ∀ s : State, s.phase = .idle →
    (s.inp.svcId = 0x181C → step s = exec .decodePlain s) ∧
    (s.inp.svcId = 0x181E → step s = exec .decodeEnc s) ∧
    (s.inp.svcId ≠ 0x181C → s.inp.svcId ≠ 0x181E → step s = exec (.notApplicable s.inp.svcId) s)

/-- 43_tlv_records.md R152: with fewer than 2 bytes left the scan stops, `TRUNCATED` keeps its value, nothing is
appended, the cursor stays; the call then ends with `STATUS = Ok` and `SUCCESS` computed. -/
def Obligations.ScanStopsCleanly : Prop :=
  ∀ s : State, s.phase = .scan → s.plen - s.offset < 2 →
    step s = .next { s with
      phase := .done
      out := { s.out with success := decide (0 < s.out.knownCount), status := .ok } }

/-- 43_tlv_records.md R153: with 2 bytes left, a record that passes the end stops the scan with `TRUNCATED`, the cursor
and `RAW` as they were and nothing appended; one that ends at or before `PLEN` runs. -/
def Obligations.ScanStopsAtTruncation : Prop :=
  ∀ s : State, s.phase = .scan → 2 ≤ s.plen - s.offset →
    (s.plen < s.offset + 2 + (s.pbuf.read s.offset).toNat % 32 →
      ∃ w : Work, step s = .next { s with
          phase := .done
          work := w
          out := { s.out with
            truncated := true
            success := decide (0 < s.out.knownCount)
            status := .ok } } ∧
        w.raw = s.work.raw ∧ w.ctrl = s.pbuf.read s.offset ∧ w.mid = s.pbuf.read (s.offset + 1) ∧
        w.next = s.offset + 2 + (s.pbuf.read s.offset).toNat % 32) ∧
    (s.offset + 2 + (s.pbuf.read s.offset).toNat % 32 ≤ s.plen →
      ∃ (i : Instr) (t : State), i.isRecord = true ∧ i.wf = true ∧ step s = exec i s ∧ exec i s = .next t ∧
        t.phase = .scan ∧ t.offset = s.offset + 2 + (s.pbuf.read s.offset).toNat % 32)

/-- 70_reset_and_hazards.md R319, 10_state.md R48: no output before the end of a call, and after it they stay. That an ended call stays
as it is until the host loads another is the model's choice (log 8); that `KNOWN_COUNT` can be read with a status other
than `Ok` is the model's inference (log 29). -/
def Obligations.OutputsAppearAtTheEndAndStay : Prop :=
  ∀ s : State, (s.phase ≠ .done → s.callResult = none ∧ s.readKnownCount = none) ∧
    (s.phase = .done → (∃ r, s.callResult = some r) ∧ (∃ n, s.readKnownCount = some n) ∧
      ∀ k, runSteps k s = .next s)

/-- 20_memory.md R57, R58, 70_reset_and_hazards.md R328: no step reads outside a buffer, whatever the state. -/
def Obligations.StepNeverFaults : Prop :=
  ∀ (s : State) (f : Fault), step s ≠ .fault f

/-- 10_state.md R35 (decision D28): the only step that is refused is the open of an encrypted frame that the CCM length
field cannot hold. -/
def Obligations.StepRefusesOnlyOversizeFrames : Prop :=
  ∀ (s : State) (r : Refusal), step s = .refused r →
    r = .ccmLengthField ∧ 2 ^ 24 ≤ s.inp.frameLen - 8 ∧
      (s.phase = .opening ∨ (s.phase = .idle ∧ s.inp.svcId = 0x181E))

/-- 10_state.md R42, R47, 70_reset_and_hazards.md R316: no instruction and no step writes the configuration or an input;
every byte of `FRAME` stays. -/
def Obligations.InputsAndConfigurationAreNeverWritten : Prop :=
  (∀ (i : Instr) (s t : State), exec i s = .next t →
    t.cfg = s.cfg ∧ t.inp = s.inp ∧ ∀ a, t.inp.frame.read a = s.inp.frame.read a) ∧
  ∀ s t : State, step s = .next t → t.cfg = s.cfg ∧ t.inp = s.inp

/-! ### Invariants -/

/-- 10_state.md R46: the block at reset meets the invariant. -/
def Obligations.ResetMeetsTheInvariant : Prop := State.reset.Inv

/-- 10_state.md R24, R26 to R29, R39, 43_tlv_records.md R157, R178, 60_exceptions.md R280, R281, 46_orchestrator.md R255:
every step keeps the invariant. -/
def Obligations.StepKeepsTheInvariant : Prop :=
  ∀ s t : State, s.Inv → step s = .next t → t.Inv

/-- 70_reset_and_hazards.md R315, 60_exceptions.md R286: the host loads a call only while none is in progress, changes
nothing but the inputs, and what it does keeps the invariant. How the host loads a call is the model's choice
(log 23). -/
def Obligations.LoadingACallKeepsTheInvariant : Prop :=
  ∀ (s t : State) (inp : Inputs), s.startCall inp = some t →
    (s.phase = .idle ∨ s.phase = .done) ∧ t = { s with inp := inp, phase := .idle } ∧ (s.Inv → t.Inv)

/-- 20_memory.md R70, 44_decryptor.md R200, R201: every scan runs over the plain frame itself or over a plaintext whose
tag has verified, and every step keeps this. -/
def Obligations.StepKeepsThePlaintextAuthentic : Prop :=
  ∀ s t : State, s.Inv → plaintextAuthentic s → step s = .next t → plaintextAuthentic t

/-! ### Runs -/

/-- 43_tlv_records.md R157: a scan ends after at most one step for every 2 bytes left and one for the stop. -/
def Obligations.ScanEndsWithinItsBound : Prop :=
  ∀ s : State, s.phase = .scan →
    ∃ k t, k ≤ (s.plen - s.offset) / 2 + 1 ∧ runSteps k s = .next t ∧ t.phase = .done

/-- 70_reset_and_hazards.md R313: every call that is not refused ends. -/
def Obligations.EveryCallEnds : Prop :=
  ∀ s : State, s.phase = .idle → (s.inp.svcId = 0x181E → s.inp.frameLen < 2 ^ 24 + 8) →
    ∃ k t, k ≤ s.inp.frameLen / 2 + 2 ∧ runSteps k s = .next t ∧ t.phase = .done

/-- 20_memory.md R61, R67, 43_tlv_records.md R156: a stream of complete records from the cursor on is executed record by
record in buffer order, each once, and the cursor ends behind it. -/
def Obligations.RecordsRunInBufferOrder : Prop :=
  ∀ (is : List Instr) (s : State), (∀ i ∈ is, i.wf = true ∧ i.isRecord = true) → s.phase = .scan →
    s.memRead s.offset (streamBytes is).length = some (streamBytes is) →
    runSteps is.length s = execList is s ∧
      ∃ t, execList is s = .next t ∧ t.offset = s.offset + (streamBytes is).length ∧ t.phase = .scan

/-- 43_tlv_records.md R174: a truncated record after complete ones stops the scan with `TRUNCATED`; results, notices and
errors are those of the complete records. -/
def Obligations.TruncatedStreamKeepsItsPrefix : Prop :=
  ∀ (is : List Instr) (s u : State), (∀ i ∈ is, i.wf = true ∧ i.isRecord = true) → s.phase = .scan →
    s.memRead s.offset (streamBytes is).length = some (streamBytes is) → execList is s = .next u →
    2 ≤ s.plen - u.offset → s.plen < u.offset + 2 + (s.pbuf.read u.offset).toNat % 32 →
    ∃ t, runSteps (is.length + 1) s = .next t ∧ t.phase = .done ∧ t.offset = u.offset ∧
      t.out = { u.out with truncated := true, success := decide (0 < u.out.knownCount), status := .ok }

/-! ### Encoding -/

/-- 30_encoding.md R80, R81, R85 to R87: decoding the code of a well-formed instruction gives it back, whatever its
operands. -/
def Obligations.DecodeOfEncode : Prop :=
  ∀ i : Instr, i.wf = true → decode (encode i) = .ok (i, [])

/-- 30_encoding.md R82: a record's length is in its control byte, so whatever follows it is left over. -/
def Obligations.RecordsDelimitThemselves : Prop :=
  ∀ (i : Instr) (rest : Bytes), i.wf = true → i.isRecord = true →
    decodeRecord (recordBytes i ++ rest) = .ok (i, rest)

/-- 30_encoding.md R80 to R82, R86: what the decoder reads is well formed, and its bytes are the ones it consumed. -/
def Obligations.DecodedBytesReencode : Prop :=
  ∀ (bytes : Bytes) (i : Instr) (rest : Bytes), decodeRecord bytes = .ok (i, rest) →
    i.wf = true ∧ i.isRecord = true ∧ recordBytes i ++ rest = bytes

/-- 43_tlv_records.md R152, R153, 30_encoding.md R103: the record decoder rejects exactly strings of fewer than 2 bytes
and strings shorter than they declare, each by name. -/
def Obligations.DecoderRejectsByName : Prop :=
  ∀ bytes : Bytes,
    (decodeRecord bytes = .error .tooShort ↔ bytes.length < 2) ∧
    (∀ ctrl mid rest, bytes = ctrl :: mid :: rest →
      (decodeRecord bytes = .error (.truncated ctrl mid) ↔ rest.length < ctrl.toNat % 32)) ∧
    ∀ ctrl, decodeRecord bytes ≠ .error (.noRow ctrl)

/-- 30_encoding.md R80, R86, R102: every control byte belongs to the row its `DLEN` and `DFMT` say, `EMPTY` first. -/
def Obligations.ControlByteSelectsItsRow : Prop :=
  ∀ ctrl : Byte, recordRow ctrl = some
    (if ctrl.toNat % 32 = 0 then .empty
     else if ctrl.toNat / 32 = 0 then .uint
     else if ctrl.toNat / 32 = 1 then .sint
     else if ctrl.toNat / 32 = 2 then .float
     else if ctrl.toNat / 32 = 3 then .utf8
     else if ctrl.toNat / 32 = 4 then .macovr
     else if ctrl.toNat / 32 = 5 then .bad5
     else if ctrl.toNat / 32 = 6 then .bad6
     else .bad7)

/-- 30_encoding.md R85, R87: the selector compares all 16 bits, the default row last. -/
def Obligations.SelectorComparesAllBits : Prop :=
  decodeService 0x181C = .decodePlain ∧ decodeService 0x181E = .decodeEnc ∧
    ∀ v : BitVec 16, v ≠ 0x181C → v ≠ 0x181E → decodeService v = .notApplicable v

/-- 43_tlv_records.md R160 to R166: records the spec writes out in bytes decode to the instructions it says. -/
def Obligations.SpecExamplesDecode : Prop :=
  decodeRecord [0x00, 0x02] = .ok (.empty 0 0x02, []) ∧
  decodeRecord [0xE0, 0x02] = .ok (.empty 7 0x02, []) ∧
  decodeRecord [0x02, 0x02, 0xC4, 0x09] = .ok (.uint 0x02 [0xC4, 0x09], []) ∧
  decodeRecord [0x22, 0x02, 0x3E, 0xF4] = .ok (.sint 0x02 [0x3E, 0xF4], []) ∧
  decodeRecord [0x42, 0x30, 0x40, 0x4E] = .ok (.float 0x30 [0x40, 0x4E], []) ∧
  decodeRecord [0x63, 0x31, 0x41, 0x62, 0x63] = .ok (.utf8 0x31 [0x41, 0x62, 0x63], []) ∧
  decodeRecord [0x86, 0x00, 0xA5, 0x80, 0x8F, 0xE6, 0x48, 0x54] =
    .ok (.macovr 0x00 [0xA5, 0x80, 0x8F, 0xE6, 0x48, 0x54], []) ∧
  decodeRecord [0xA1, 0x02, 0x00, 0x01, 0x01, 0x64] = .ok (.bad5 0x02 [0x00], [0x01, 0x01, 0x64])

/-! ### The record forms -/

/-- 43_tlv_records.md R160, R150, R151: `EMPTY` moves the cursor by 2 and writes no flag, value, notice or error; of the
working registers it writes those of steps 2 and 3. That exec writes them, and leaves `RAW` as it was, is the model's
choice (log 27). -/
def Obligations.EmptyConsumesTwoBytes : Prop :=
  ∀ (dfmt : BitVec 3) (mid : Byte) (s : State), exec (.empty dfmt mid) s = .next { s with
    offset := s.offset + 2
    work := { s.work with
      ctrl := BitVec.ofNat 8 (dfmt.toNat * 32)
      dlen := 0
      dfmt := dfmt
      mid := mid
      next := s.offset + 2 } }

/-- 43_tlv_records.md R161, R159, 41_numeric_codec.md R111: `UINT` stores the scaled little-endian unsigned value of a
known id, makes a notice of an unknown one, and consumes the record. -/
def Obligations.UintStoresTheScaledValue : Prop :=
  ∀ (mid : Byte) (raw : Bytes) (s : State), 1 ≤ raw.length → raw.length ≤ 31 →
    ∃ t, exec (.uint mid raw) s = .next t ∧ t.offset = s.offset + 2 + raw.length ∧
      (∀ e, lookup s.cfg.registry mid = some e →
        storesNumber s.out t.out mid (scale (intToF64 (leNat raw)) e.factor e.decimals)) ∧
      (lookup s.cfg.registry mid = none →
        t.out = { s.out with notices := insertId mid s.out.notices })

/-- 43_tlv_records.md R162, R159, 41_numeric_codec.md R112: `SINT` stores the scaled two's-complement value of a known
id, makes a notice of an unknown one, and consumes the record. -/
def Obligations.SintStoresTheScaledValue : Prop :=
  ∀ (mid : Byte) (raw : Bytes) (s : State), 1 ≤ raw.length → raw.length ≤ 31 →
    ∃ t, exec (.sint mid raw) s = .next t ∧ t.offset = s.offset + 2 + raw.length ∧
      (∀ e, lookup s.cfg.registry mid = some e →
        ∃ i, sext (8 * raw.length) (leNat raw) = some i ∧
          storesNumber s.out t.out mid (scale (intToF64 i) e.factor e.decimals)) ∧
      (lookup s.cfg.registry mid = none →
        t.out = { s.out with notices := insertId mid s.out.notices })

/-- 43_tlv_records.md R163, R159, 41_numeric_codec.md R119, R121, 60_exceptions.md R279: `FLOAT` stores the scaled datum
of 2, 4 or 8 bytes of a known id, reports any other width, makes a notice of an unknown id whatever the width, and
consumes the record. -/
def Obligations.FloatStoresOrReportsTheWidth : Prop :=
  ∀ (mid : Byte) (raw : Bytes) (s : State), 1 ≤ raw.length → raw.length ≤ 31 →
    ∃ t, exec (.float mid raw) s = .next t ∧ t.offset = s.offset + 2 + raw.length ∧
      (∀ e, lookup s.cfg.registry mid = some e →
        if raw.length = 2 then storesNumber s.out t.out mid (scale (datum16 (leNat raw)) e.factor e.decimals)
        else if raw.length = 4 then
          storesNumber s.out t.out mid (scale (datum32 (leNat raw)) e.factor e.decimals)
        else if raw.length = 8 then
          storesNumber s.out t.out mid (scale (datum64 (leNat raw)) e.factor e.decimals)
        else t.out = { s.out with
          errors := s.out.errors ++ [⟨s.offset, mid, .unsupportedNumericWidth⟩] }) ∧
      (lookup s.cfg.registry mid = none →
        t.out = { s.out with notices := insertId mid s.out.notices })

/-- 43_tlv_records.md R164, R169, R159, 41_numeric_codec.md R126, 60_exceptions.md R278: `UTF8` stores the text whose
UTF-8 encoding the payload is (or drops it under `STRING_DISCARD`), reports a payload that is the encoding of no text,
makes a notice of an unknown id, and consumes the record. -/
def Obligations.Utf8StoresTextOrReportsIt : Prop :=
  ∀ (mid : Byte) (raw : Bytes) (s : State), 1 ≤ raw.length → raw.length ≤ 31 →
    ∃ t, exec (.utf8 mid raw) s = .next t ∧ t.offset = s.offset + 2 + raw.length ∧
      (∀ e, lookup s.cfg.registry mid = some e →
        (∀ text, utf8Encode text = raw →
          if s.cfg.stringDiscard = true then t.out = s.out else appendsKnown s.out t.out mid (.text text)) ∧
        ((∀ text, utf8Encode text ≠ raw) →
          t.out = { s.out with errors := s.out.errors ++ [⟨s.offset, mid, .invalidUTF8⟩] })) ∧
      (lookup s.cfg.registry mid = none →
        t.out = { s.out with notices := insertId mid s.out.notices })

/-- 43_tlv_records.md R165, R172, R178, 41_numeric_codec.md R130, R131: `MACOVR` stores six bytes reversed, known only
under `MAC_COUNTS_AS_KNOWN`, reports any other length, and consumes the record; no registry, no notice. -/
def Obligations.MacovrStoresTheReversedAddress : Prop :=
  ∀ (mid : Byte) (raw : Bytes) (s : State), 1 ≤ raw.length → raw.length ≤ 31 →
    ∃ t, exec (.macovr mid raw) s = .next t ∧ t.offset = s.offset + 2 + raw.length ∧
      (∀ addr : MacAddr, addr.toBytes = raw.reverse → t.out = { s.out with
        results := s.out.results ++ [(mid, .macAddress addr)]
        knownCount := s.out.knownCount + if s.cfg.macCountsAsKnown = true then 1 else 0 }) ∧
      (raw.length ≠ 6 → t.out = { s.out with
        errors := s.out.errors ++ [⟨s.offset, mid, .invalidMacLength⟩] })

/-- 43_tlv_records.md R166, 60_exceptions.md R277: `BAD5`, `BAD6`, `BAD7` report a malformed control byte, always, and
consume the record; no value, no notice, no lookup. -/
def Obligations.BadFormatsReportMalformed : Prop :=
  ∀ (mid : Byte) (raw : Bytes) (s : State), 1 ≤ raw.length → raw.length ≤ 31 →
    ∀ i ∈ [Instr.bad5 mid raw, .bad6 mid raw, .bad7 mid raw],
      ∃ t, exec i s = .next t ∧ t.offset = s.offset + 2 + raw.length ∧
        t.out = { s.out with errors := s.out.errors ++ [⟨s.offset, mid, .malformedControlByte⟩] }

/-- 10_state.md R48, 20_memory.md R60, 60_exceptions.md R281: the frame of all nine record forms. A record writes the
working registers, the cursor, `RESULTS`, `NOTICES`, `ERRORS` and `KNOWN_COUNT` (and the model's draw counter); all
else stays, every byte of `FRAME` and `PBUF` among it, and no entry of an output list is removed or changed. -/
def Obligations.RecordFrame : Prop :=
  ∀ (i : Instr) (s t : State), i.isRecord = true → exec i s = .next t →
    sameButRecord s t ∧ s.out.results <+: t.out.results ∧ s.out.errors <+: t.out.errors ∧
      (∀ id ∈ s.out.notices, id ∈ t.out.notices) ∧ s.out.knownCount ≤ t.out.knownCount

/-- 43_tlv_records.md R168, 60_exceptions.md R291: a record has exactly one outcome for the outputs: none, one value, one
notice or one error. -/
def Obligations.RecordHasOneOutcome : Prop :=
  ∀ (i : Instr) (s t : State), i.isRecord = true → exec i s = .next t →
    t.out = s.out ∨
    (∃ v n, n ≤ 1 ∧ t.out = { s.out with
      results := s.out.results ++ [(t.work.mid, v)]
      knownCount := s.out.knownCount + n }) ∨
    t.out = { s.out with notices := insertId t.work.mid s.out.notices } ∨
    ∃ kind, t.out = { s.out with errors := s.out.errors ++ [⟨s.offset, t.work.mid, kind⟩] }

/-- 10_state.md R21, R24, 43_tlv_records.md R151, R156: after a record the working registers hold its control byte, id
and (unless it is empty) payload, and the cursor has moved to `NEXT`, by 2 to 33 bytes. -/
def Obligations.WorkingRegistersHoldTheRecord : Prop :=
  ∀ (i : Instr) (s t : State), i.wf = true → i.isRecord = true → exec i s = .next t →
    recordBytes i = t.work.ctrl :: t.work.mid :: (if t.work.dlen = 0 then [] else t.work.raw) ∧
      t.work.dlen.toNat = t.work.ctrl.toNat % 32 ∧ t.work.dfmt.toNat = t.work.ctrl.toNat / 32 ∧
      t.work.next = s.offset + (recordBytes i).length ∧ t.offset = t.work.next ∧
      s.offset + 2 ≤ t.offset ∧ t.offset ≤ s.offset + 33

/-- 10_state.md R24: in a scan the cursor either moves by 2 to 33 bytes and stays inside `PLEN`, or stays and the scan
ends. -/
def Obligations.CursorOnlyAdvances : Prop :=
  ∀ s t : State, s.phase = .scan → step s = .next t →
    (t.phase = .scan ∧ s.offset + 2 ≤ t.offset ∧ t.offset ≤ s.offset + 33 ∧ t.offset ≤ t.plen) ∨
    (t.phase = .done ∧ t.offset = s.offset)

/-- 60_exceptions.md R300, 10_state.md R33, 43_tlv_records.md R171: what a record does is the same under any key, address
or frame: records cannot read the call inputs. -/
def Obligations.RecordsCannotReadTheInputs : Prop :=
  ∀ (i : Instr) (s t : State) (x : Inputs), i.isRecord = true → exec i s = .next t →
    exec i { s with inp := x } = .next { t with inp := x }

/-- 43_tlv_records.md R167, 42_registry.md R142: the declared representations of the registry change nothing. -/
def Obligations.RepresentationIsNeverRead : Prop :=
  ∀ (i : Instr) (s t : State) (f : Entry → Representation), i.isRecord = true → exec i s = .next t →
    exec i { s with cfg := { s.cfg with
        registry := s.cfg.registry.map (fun e => { e with representation := f e }) } } =
      .next { t with cfg := { t.cfg with
        registry := t.cfg.registry.map (fun e => { e with representation := f e }) } }

/-- 43_tlv_records.md R172: `MACOVR` uses no registry entry, whatever the registry holds, and makes no notice. -/
def Obligations.MacovrIgnoresTheRegistry : Prop :=
  ∀ (mid : Byte) (raw : Bytes) (s t : State) (r : Registry), exec (.macovr mid raw) s = .next t →
    t.out.notices = s.out.notices ∧
    exec (.macovr mid raw) { s with cfg := { s.cfg with registry := r } } =
      .next { t with cfg := { t.cfg with registry := r } }

/-! ### Numbers -/

/-- 00_scope.md R14, 20_memory.md R51: `LE` is the sum of the bytes by powers of 256, below `256^n`. -/
def Obligations.LittleEndianSum : Prop :=
  ∀ b : Bytes, leNat b = ∑ k ∈ Finset.range b.length, (b.getD k 0).toNat * 256 ^ k ∧
    leNat b < 256 ^ b.length

/-- 30_encoding.md R95, 41_numeric_codec.md R112: the signed operand is the two's complement of the payload's own width,
its sign bit 7 of the last byte; an empty payload has none (41_numeric_codec.md R118), so that neither integer decoder is
defined on it. -/
def Obligations.SignedOperandIsTwosComplement : Prop :=
  (∀ raw : Bytes, 1 ≤ raw.length → ∃ i, signedOperand raw = some i ∧
    -(2 : Int) ^ (8 * raw.length - 1) ≤ i ∧ i < (2 : Int) ^ (8 * raw.length - 1) ∧
      (i = leNat raw ∨ i = leNat raw - (2 : Int) ^ (8 * raw.length)) ∧
      (i < 0 ↔ 128 ≤ (raw.getD (raw.length - 1) 0).toNat)) ∧
  decodeUnsigned [] = none ∧ decodeSigned [] = none

/-- 41_numeric_codec.md R114: `INT_TO_F64` is exact up to `2^53`, and sends 0 to +0.0. -/
def Obligations.IntegerConversionIsExact : Prop :=
  (∀ i : Int, i.natAbs ≤ 2 ^ 53 → ∃ neg m e, intToF64 i = .fin neg m e ∧ (intToF64 i).value = i) ∧
    intToF64 0 = .fin false 0 (-1074)

/-- 41_numeric_codec.md R114 to R116: a finite result of the one rounding is a binary64 nearest the exact value, with an
even significand at a tie. -/
def Obligations.RoundingIsToNearestEven : Prop :=
  ∀ (neg : Bool) (num den : Nat), 0 < den → ∀ (n : Bool) (m : Nat) (e : Int), nearest neg num den = .fin n m e →
    n = neg ∧ binary64Form m e ∧ ∀ (m' : Nat) (e' : Int), binary64Form m' e' →
      |(m : ℚ) * 2 ^ e - num / den| ≤ |(m' : ℚ) * 2 ^ e' - num / den| ∧
      (|(m : ℚ) * 2 ^ e - num / den| = |(m' : ℚ) * 2 ^ e' - num / den| →
        (m : ℚ) * 2 ^ e ≠ (m' : ℚ) * 2 ^ e' → m % 2 = 0)

/-- 41_numeric_codec.md R115: the rounding gives an infinity exactly from half a unit past the largest finite binary64
on, and a finite value otherwise. -/
def Obligations.RoundingOverflowsToInfinity : Prop :=
  ∀ (neg : Bool) (num den : Nat), 0 < den →
    (nearest neg num den = .inf neg ↔ (2 ^ 54 - 1) * 2 ^ 970 * den ≤ num) ∧
    (num < (2 ^ 54 - 1) * 2 ^ 970 * den → ∃ m e, nearest neg num den = .fin neg m e)

/-- 41_numeric_codec.md R116: the integer `k` of `ROUND_DEC` is within one half of `x * 10^n`, and even at exactly one
half. -/
def Obligations.RoundDecPicksTheNearestDecimal : Prop :=
  ∀ (m : Nat) (e n : Int),
    |(decimalInteger m e n : ℚ) - m * 2 ^ e * 10 ^ n| ≤ 1 / 2 ∧
    (|(decimalInteger m e n : ℚ) - m * 2 ^ e * 10 ^ n| = 1 / 2 → decimalInteger m e n % 2 = 0)

/-- 41_numeric_codec.md R133: the source's worked value. -/
def Obligations.WorkedValueIsTwentyFive : Prop :=
  (intToF64 2500).value = 2500 ∧ (f64Mul (intToF64 2500) (datum64 0x3F847AE147AE147B)).value = 25 ∧
    ∃ neg m e, scale (intToF64 2500) 0x3F847AE147AE147B 2 = .datum (.fin neg m e) ∧
      finBits neg m e = 0x4039000000000000

/-- 41_numeric_codec.md R123, R111, 42_registry.md R143: under a well-formed registry an infinity scales to itself and
an all-zero integer payload to +0.0. -/
def Obligations.WellFormedRegistryKeepsInfinityAndZero : Prop :=
  ∀ (r : Registry) (id : Byte) (e : Entry), registryWellFormed r → lookup r id = some e →
    (∀ neg, scale (.inf neg) e.factor e.decimals = .datum (.inf neg)) ∧
    ∀ n, scale (intToF64 (leNat (List.replicate n 0))) e.factor e.decimals = .datum (.fin false 0 (-1074))

/-- 41_numeric_codec.md R124, R120: the drawn bits are a NaN, and every NaN may be drawn. -/
def Obligations.EveryNanIsAPossibleDraw : Prop :=
  ∀ b : BitVec 64, isNan64 b ↔ ∃ d : NanDraw, nanBits d = b

/-- 41_numeric_codec.md R120: encoding a finite binary64 and reading it back gives it again, and the other way round. -/
def Obligations.StoredNumbersReadBack : Prop :=
  (∀ (neg : Bool) (m : Nat) (e : Int), binary64Form m e → datum64 (finBits neg m e).toNat = .fin neg m e) ∧
  (∀ (b : BitVec 64) (neg : Bool) (m : Nat) (e : Int), datum64 b.toNat = .fin neg m e →
    binary64Form m e ∧ finBits neg m e = b) ∧
  ∀ neg, datum64 (infBits neg).toNat = .inf neg

/-- 41_numeric_codec.md R120: every finite binary16 and binary32 datum, subnormal ones too, has its exact value among the
binary64 data. -/
def Obligations.WideningIsExact : Prop :=
  ∀ (enc : Nat) (neg : Bool) (m : Nat) (e : Int), datum16 enc = .fin neg m e ∨ datum32 enc = .fin neg m e →
    ∃ (m' : Nat) (e' : Int), binary64Form m' e' ∧ (m' : ℚ) * 2 ^ e' = m * 2 ^ e

/-- 41_numeric_codec.md R126 to R128: the text operand of a payload is the text whose encoding it is: the two are inverse
to each other. -/
def Obligations.TextRoundTrip : Prop :=
  (∀ text : List Char, textOperand (utf8Encode text) = some text) ∧
  ∀ (raw : Bytes) (text : List Char), textOperand raw = some text → utf8Encode text = raw

/-! ### AES and CCM -/

/-- 45_aes_ccm_reference.md R227: the check values of the block cipher and of the key expansion. -/
def Obligations.AesCheckValues : Prop :=
  (aesEncrypt
      (blockOf [0x00, 0x01, 0x02, 0x03, 0x04, 0x05, 0x06, 0x07, 0x08, 0x09, 0x0A, 0x0B, 0x0C, 0x0D, 0x0E, 0x0F])
      (blockOf [0x00, 0x11, 0x22, 0x33, 0x44, 0x55, 0x66, 0x77, 0x88, 0x99, 0xAA, 0xBB, 0xCC, 0xDD, 0xEE, 0xFF])).toBytes =
    [0x69, 0xC4, 0xE0, 0xD8, 0x6A, 0x7B, 0x04, 0x30, 0xD8, 0xCD, 0xB7, 0x80, 0x70, 0xB4, 0xC5, 0x5A] ∧
  (aesEncrypt
      (blockOf [0x2B, 0x7E, 0x15, 0x16, 0x28, 0xAE, 0xD2, 0xA6, 0xAB, 0xF7, 0x15, 0x88, 0x09, 0xCF, 0x4F, 0x3C])
      (blockOf [0x32, 0x43, 0xF6, 0xA8, 0x88, 0x5A, 0x30, 0x8D, 0x31, 0x31, 0x98, 0xA2, 0xE0, 0x37, 0x07, 0x34])).toBytes =
    [0x39, 0x25, 0x84, 0x1D, 0x02, 0xDC, 0x09, 0xFB, 0xDC, 0x11, 0x85, 0x97, 0x19, 0x6A, 0x0B, 0x32] ∧
  (roundKeys
      (blockOf [0x2B, 0x7E, 0x15, 0x16, 0x28, 0xAE, 0xD2, 0xA6, 0xAB, 0xF7, 0x15, 0x88, 0x09, 0xCF, 0x4F, 0x3C]))[0]? =
    some (blockOf [0xA0, 0xFA, 0xFE, 0x17, 0x88, 0x54, 0x2C, 0xB1, 0x23, 0xA3, 0x39, 0x39, 0x2A, 0x6C, 0x76, 0x05]) ∧
  (roundKeys
      (blockOf [0x2B, 0x7E, 0x15, 0x16, 0x28, 0xAE, 0xD2, 0xA6, 0xAB, 0xF7, 0x15, 0x88, 0x09, 0xCF, 0x4F, 0x3C]))[9]? =
    some (blockOf [0xD0, 0x14, 0xF9, 0xA8, 0xC9, 0xEE, 0x25, 0x89, 0xE1, 0x3F, 0x0C, 0xC8, 0xB6, 0x63, 0x0C, 0xA6])

/-- 45_aes_ccm_reference.md R222, R223: the S-box table is the affine map of the field inverse. -/
def Obligations.SboxMatchesItsDefinition : Prop :=
  ∀ a : Byte, ∃ b : Byte, ((a = 0 ∧ b = 0) ∨ gfMul a b = 1) ∧
    sbox a = b ^^^ b.rotateLeft 1 ^^^ b.rotateLeft 2 ^^^ b.rotateLeft 3 ^^^ b.rotateLeft 4 ^^^ 0x63

/-- 45_aes_ccm_reference.md R241, 44_decryptor.md R204: what has been sealed opens. -/
def Obligations.SealedFramesOpen : Prop :=
  ∀ (key : Bytes) (nonce : Nonce) (aad pt : Bytes),
    aeadOpen key nonce aad (aeadSeal key nonce aad pt).1 (aeadSeal key nonce aad pt).2 = some pt

/-- 44_decryptor.md R198, R199: the open gives a plaintext exactly when sealing it gives this ciphertext and this tag,
and it has the ciphertext's length. -/
def Obligations.OpenSucceedsExactlyOnTagMatch : Prop :=
  ∀ (key : Bytes) (nonce : Nonce) (aad ct : Bytes) (mic : Bytes4) (pt : Bytes),
    (aeadOpen key nonce aad ct mic = some pt ↔ aeadSeal key nonce aad pt = (ct, mic)) ∧
    (aeadOpen key nonce aad ct mic = some pt → pt.length = ct.length)

/-! ### The frame-level operations -/

/-- 46_orchestrator.md R251: `DECODE_PLAIN` starts a scan at 0 over the frame, whatever the address and the key, with
every output as at the start of a call. `SUCCESS` and `STATUS` are written when the scan stops (log 10). -/
def Obligations.DecodePlainStartsTheScan : Prop :=
  ∀ s : State, exec .decodePlain s = .next { State.reset with
    cfg := s.cfg
    inp := s.inp
    draws := s.draws
    phase := .scan
    pbuf := s.inp.frame
    plen := s.inp.frameLen }

/-- 60_exceptions.md R290, R280, 44_decryptor.md R202: the first fatal cause that holds ends the call of `DECODE_ENC`
with its status, before any output is touched. -/
def Obligations.DecodeEncFatalPriority : Prop :=
  ∀ s : State,
    let ended : Status → State := fun st => { State.reset with
      cfg := s.cfg
      inp := s.inp
      draws := s.draws
      phase := .done
      out := { Outputs.reset with status := st, decryptOk := some false } }
    (s.inp.macKnown = false → exec .decodeEnc s = .next (ended .schemeUnavailable)) ∧
    (s.inp.macKnown = true → s.inp.keyPresent = false → exec .decodeEnc s = .next (ended .missingKey)) ∧
    (s.inp.macKnown = true → s.inp.keyPresent = true → s.inp.key.length ≠ 16 →
      exec .decodeEnc s = .next (ended .invalidKeyLength)) ∧
    (s.inp.macKnown = true → s.inp.keyPresent = true → s.inp.key.length = 16 → s.inp.frameLen < 15 →
      exec .decodeEnc s = .next (ended .truncatedPayload))

/-- 46_orchestrator.md R252, 44_decryptor.md R190, R194, R196, R200, R201, 10_state.md R35: with a known address, a
16-byte key and at least 15 bytes `DECODE_ENC` opens the frame sliced from its end: a matching tag starts the scan over
the plaintext, any other ends the call with `AuthenticationFailed` and no plaintext; a frame past the CCM length field
is refused. That the EncryptionContext still holds the slices and the nonce when the open is over is the model's choice
(log 30). -/
def Obligations.DecodeEncOpensTheFrame : Prop :=
  ∀ s : State, s.inp.macKnown = true → s.inp.keyPresent = true → s.inp.key.length = 16 → 15 ≤ s.inp.frameLen →
    (s.inp.frameLen - 8 < 2 ^ 24 → ∀ ct counter mic, s.frameRead 0 (s.inp.frameLen - 8) = some ct →
      s.frameRead (s.inp.frameLen - 8) 4 = some counter → s.frameRead (s.inp.frameLen - 4) 4 = some mic →
      ∃ t, exec .decodeEnc s = .next t ∧ t.cfg = s.cfg ∧ t.inp = s.inp ∧ t.draws = s.draws ∧ t.work = Work.reset ∧
        t.offset = 0 ∧ t.ctx.ct = ct ∧ t.ctx.counter.toBytes = counter ∧ t.ctx.mic.toBytes = mic ∧
        t.ctx.nonce.toBytes = s.inp.mac.toBytes ++ [0x1E, 0x18] ++ counter ∧
        (∀ pt, aeadOpen s.inp.key t.ctx.nonce [0x11] ct t.ctx.mic = some pt →
          t.phase = .scan ∧ t.plen = s.inp.frameLen - 8 ∧ t.memRead 0 (s.inp.frameLen - 8) = some pt ∧
            t.out = { Outputs.reset with decryptOk := some true, keyVerified := some true }) ∧
        (aeadOpen s.inp.key t.ctx.nonce [0x11] ct t.ctx.mic = none →
          t.phase = .done ∧ t.plen = 0 ∧ t.pbuf = [] ∧
            t.out = { Outputs.reset with
              status := .authenticationFailed
              decryptOk := some false
              keyVerified := some false })) ∧
    (2 ^ 24 ≤ s.inp.frameLen - 8 → exec .decodeEnc s = .refused .ccmLengthField)

/-- 46_orchestrator.md R254: `NOT_APPLICABLE` ends the call with its own status; every other output is as at the start
of a call. -/
def Obligations.NotApplicableEndsTheCall : Prop :=
  ∀ (svcId : BitVec 16) (s : State), exec (.notApplicable svcId) s = .next { State.reset with
    cfg := s.cfg
    inp := s.inp
    draws := s.draws
    phase := .done
    out := { Outputs.reset with status := .notApplicable } }

/-- 46_orchestrator.md R255, 10_state.md R48: what the host reads after a call, by status and scheme, `KNOWN_COUNT` beside
the output tuple. That the counter can be read, as 0, with a status other than `Ok` is the model's inference
(log 29). -/
def Obligations.CallResultFollowsTheStatusTable : Prop :=
  ∀ s : State, s.Inv → s.phase = .done → ∃ r n, s.callResult = some r ∧ r.status = s.out.status ∧
    s.readKnownCount = some n ∧ n = s.out.knownCount ∧ r.success = decide (0 < n) ∧ (s.out.status ≠ .ok → n = 0) ∧
    match s.out.status with
    | .ok =>
      r.outcome = some ⟨s.out.results, s.out.notices, s.out.truncated⟩ ∧ r.errors = some s.out.errors ∧
        r.success = decide (0 < s.out.knownCount) ∧
        ((s.inp.svcId = 0x181C ∧ r.decryptOk = none ∧ r.keyVerified = none) ∨
          (s.inp.svcId = 0x181E ∧ r.decryptOk = some true ∧ r.keyVerified = some true))
    | .notApplicable =>
      r.outcome = none ∧ r.errors = none ∧ r.success = false ∧ r.decryptOk = none ∧ r.keyVerified = none
    | .authenticationFailed =>
      r.outcome = none ∧ r.errors = none ∧ r.success = false ∧ r.decryptOk = some false ∧
        r.keyVerified = some false
    | _ =>
      r.outcome = none ∧ r.errors = none ∧ r.success = false ∧ r.decryptOk = some false ∧ r.keyVerified = none
end

