-- ==== Sys2Proof/Laws/Ccm.lean ====
section
/-! SUPPORT. The payload XOR of CCM (45_aes_ccm_reference.md R235, R237): its length and its self-inverse. -/

namespace Sys2Proof.Machine

@[simp] theorem Block.toBytes_length (b : Block) : b.toBytes.length = 16 := rfl

/-- There is keystream for every byte of the message. -/
theorem keystream_length (e : Block → Block) (nonce : Nonce) (n : Nat) :
    (keystream e nonce n).length = 16 * blockCount n := by
  simp [keystream, List.length_flatMap, Nat.mul_comm]

theorem le_blockCount (n : Nat) : n ≤ 16 * blockCount n := by
  simp only [blockCount]
  omega

@[simp] theorem xorStream_length (e : Block → Block) (nonce : Nonce) (b : Bytes) :
    (xorStream e nonce b).length = b.length := by
  rw [xorStream, List.length_zipWith, keystream_length]
  have := le_blockCount b.length
  omega

/-- XOR with a string at least as long, twice, changes nothing. -/
theorem zipWith_xor_self (b k : Bytes) (h : b.length ≤ k.length) :
    List.zipWith (fun x y => x ^^^ y) (List.zipWith (fun x y => x ^^^ y) b k) k = b := by
  induction b generalizing k with
  | nil => simp
  | cons x b ih =>
    cases k with
    | nil => simp at h
    | cons y k => simpa using ih k (by simpa using h)

end Sys2Proof.Machine
end

