-- ==== Sys2Proof/Laws/Float64.lean ====
section
/-! SUPPORT. The two parts of a rounding (41_numeric_codec.md R114 to R116), each said once over the rationals: the
integer nearest a fraction, and the exponent at which a fraction has 53 significant bits. -/

namespace Sys2Proof.Machine

/-- Scaling a fraction by a power of two, as `nearest` and `roundingExponent` do it. -/
theorem scaled_ratio (num den : Nat) (e : Int) :
    ((num * 2 ^ (-e).toNat : Nat) : ℚ) / ((den * 2 ^ e.toNat : Nat) : ℚ) = (num / den : ℚ) / 2 ^ e := by
  rcases le_total 0 e with h | h
  · obtain ⟨k, rfl⟩ := Int.eq_ofNat_of_zero_le h
    simp [div_div]
  · obtain ⟨k, hk⟩ := Int.eq_ofNat_of_zero_le (neg_nonneg.mpr h)
    obtain rfl : e = -k := by omega
    simp [zpow_neg, mul_div_right_comm]

/-- A lower bound on a floor is one on the fraction. -/
theorem le_floor_iff {num den : Nat} (c : Nat) (h : 0 < den) : c ≤ num / den ↔ (c : ℚ) ≤ num / den := by
  have hd : (0 : ℚ) < den := by exact_mod_cast h
  rw [Nat.le_div_iff_mul_le h, le_div_iff₀ hd]
  exact_mod_cast Iff.rfl

/-- `roundHalfEven` is within one half of the fraction, and even at exactly one half. -/
theorem roundHalfEven_spec {num den : Nat} (h : 0 < den) :
    |(roundHalfEven num den : ℚ) - num / den| ≤ 1 / 2 ∧
      (|(roundHalfEven num den : ℚ) - num / den| = 1 / 2 → roundHalfEven num den % 2 = 0) := by
  have hd : (0 : ℚ) < den := by exact_mod_cast h
  have hm := Nat.mod_lt num h
  have hq : (num : ℚ) / den = (num / den : Nat) + (num % den : Nat) / den := by
    have h1 : (num : ℚ) = den * (num / den : Nat) + (num % den : Nat) := by
      exact_mod_cast (Nat.div_add_mod num den).symm
    rw [div_eq_iff hd.ne', add_mul, div_mul_cancel₀ _ hd.ne', mul_comm ((num / den : Nat) : ℚ), ← h1]
  rw [hq]
  simp only [roundHalfEven]
  generalize num / den = q at *
  generalize num % den = r at *
  have hr0 : (0 : ℚ) ≤ r / den := by positivity
  have hr1 : (r : ℚ) / den < 1 := by
    rw [div_lt_one hd]
    exact_mod_cast hm
  split
  · rename_i h1
    have h2 : (r : ℚ) / den < 1 / 2 := by
      rw [div_lt_div_iff₀ hd (by norm_num)]
      have : ((2 * r : Nat) : ℚ) < den := by exact_mod_cast h1
      push_cast at this
      linarith
    rw [show (q : ℚ) - (q + r / den) = -(r / den) by ring, abs_neg, abs_of_nonneg hr0]
    exact ⟨h2.le, fun hh => absurd hh h2.ne⟩
  split
  · rename_i h1 h2
    have h3 : (1 : ℚ) / 2 < r / den := by
      rw [lt_div_iff₀ hd]
      have : (den : ℚ) < (2 * r : Nat) := by exact_mod_cast h2
      push_cast at this
      linarith
    rw [show ((q + 1 : Nat) : ℚ) - (q + r / den) = 1 - r / den by push_cast; ring, abs_of_nonneg (by linarith)]
    exact ⟨by linarith, fun hh => by linarith⟩
  · have h3 : (r : ℚ) / den = 1 / 2 := by
      obtain rfl : den = 2 * r := by omega
      rw [div_eq_iff hd.ne']
      push_cast
      ring
    rw [h3]
    split
    · rename_i h4
      exact ⟨by rw [abs_le]; constructor <;> linarith, fun _ => h4⟩
    · exact ⟨by push_cast; rw [abs_le]; constructor <;> linarith, fun _ => by omega⟩

/-- At `roundingExponent` a positive fraction lies below `2^53`, and from `2^52` on or at the least exponent. -/
theorem roundingExponent_spec {num den : Nat} (hn : 0 < num) (hd : 0 < den) :
    -1074 ≤ roundingExponent num den ∧
      (num / den : ℚ) / 2 ^ roundingExponent num den < 2 ^ 53 ∧
      ((2 : ℚ) ^ 52 ≤ (num / den : ℚ) / 2 ^ roundingExponent num den ∨ roundingExponent num den = -1074) := by
  have hdq : (0 : ℚ) < den := by exact_mod_cast hd
  have hp : ∀ z : Int, (0 : ℚ) < 2 ^ z := fun z => by positivity
  have lower : ∀ n : Nat, 0 < n → (2 : ℚ) ^ (n.log2 : Int) ≤ n := fun n h => by
    rw [zpow_natCast]
    exact_mod_cast Nat.log2_self_le (by omega)
  have upper : ∀ n : Nat, (n : ℚ) < 2 ^ ((n.log2 : Int) + 1) := fun n => by
    rw [show (n.log2 : Int) + 1 = ((n.log2 + 1 : Nat) : Int) by push_cast; ring, zpow_natCast]
    exact_mod_cast Nat.lt_log2_self
  have x1 : (num / den : ℚ) < 2 ^ ((num.log2 : Int) - den.log2 + 1) := by
    rw [div_lt_iff₀ hdq, show (num.log2 : Int) - den.log2 + 1 = (num.log2 + 1) - den.log2 by ring,
      zpow_sub₀ (by norm_num)]
    calc (num : ℚ) < 2 ^ ((num.log2 : Int) + 1) := upper num
      _ = 2 ^ ((num.log2 : Int) + 1) / 2 ^ (den.log2 : Int) * 2 ^ (den.log2 : Int) := by field_simp
      _ ≤ _ := by gcongr; exact lower den hd
  have x2 : (2 : ℚ) ^ ((num.log2 : Int) - den.log2 - 1) < (num / den : ℚ) := by
    rw [lt_div_iff₀ hdq, show (num.log2 : Int) - den.log2 - 1 = num.log2 - (den.log2 + 1) by ring,
      zpow_sub₀ (by norm_num)]
    calc (2 : ℚ) ^ (num.log2 : Int) / 2 ^ ((den.log2 : Int) + 1) * den <
          2 ^ (num.log2 : Int) / 2 ^ ((den.log2 : Int) + 1) * 2 ^ ((den.log2 : Int) + 1) := by
            gcongr; exact upper den
      _ = 2 ^ (num.log2 : Int) := by field_simp
      _ ≤ _ := lower num hn
  unfold roundingExponent
  generalize hx : (num / den : ℚ) = x at *
  generalize he : max ((num.log2 : Int) - den.log2 - 53) (-1074) = e
  have he1 : (num.log2 : Int) - den.log2 - 53 ≤ e := he ▸ le_max_left _ _
  have he2 : -1074 ≤ e := he ▸ le_max_right _ _
  have y1 : x / 2 ^ e < 2 ^ (54 : Int) := by
    rw [div_lt_iff₀ (hp e), ← zpow_add₀ (by norm_num)]
    exact lt_of_lt_of_le x1 (zpow_le_zpow_right₀ (by norm_num) (by omega))
  have y2 : (2 : ℚ) ^ 52 ≤ x / 2 ^ e ∨ e = -1074 := by
    rcases le_total ((num.log2 : Int) - den.log2 - 53) (-1074) with h | h
    · exact .inr (by omega)
    · left
      rw [le_div_iff₀ (hp e), ← zpow_natCast, ← zpow_add₀ (by norm_num)]
      exact le_of_lt (lt_of_le_of_lt (zpow_le_zpow_right₀ (by norm_num) (by push_cast; omega)) x2)
  have hif := le_floor_iff (num := num * 2 ^ (-e).toNat) (2 ^ 53) (show 0 < den * 2 ^ e.toNat by positivity)
  rw [scaled_ratio, hx] at hif
  have hhalf : x / 2 ^ (e + 1) = x / 2 ^ e / 2 := by
    rw [zpow_add₀ (by norm_num), zpow_one, div_div]
  dsimp only
  split
  · rename_i h
    have h53 : (2 : ℚ) ^ 53 ≤ x / 2 ^ e := by exact_mod_cast hif.mp h
    refine ⟨by omega, ?_, .inl ?_⟩ <;> rw [hhalf]
    · norm_num at y1 ⊢
      linarith
    · norm_num at h53 ⊢
      linarith
  · rename_i h
    have h53 := not_le.mp (mt hif.mpr h)
    exact ⟨he2, by exact_mod_cast h53, y2⟩

end Sys2Proof.Machine
end

