-- ==== Sys2Proof/Laws/Memory.lean ====
section
/-! SUPPORT. The laws of the byte memory: every operation keeps the canonical form, reads see the last write, and a
canonical memory is determined by what it reads. -/

namespace Sys2Proof.Machine

/-! ### Canonical form -/

theorem Memory.wf_nil : Memory.wf [] := ⟨List.Pairwise.nil, by simp⟩

theorem Memory.wf_tail {c : Host.Cell} {m : Memory} (h : Memory.wf (c :: m)) : Memory.wf m :=
  ⟨(List.pairwise_cons.mp h.1).2, fun d hd => h.2 d (List.mem_cons_of_mem _ hd)⟩

/-- An address of a written memory was listed before, or is the one written. -/
theorem Memory.write_addr {m : Memory} {a : Nat} {b : Byte} {c : Host.Cell} (h : c ∈ m.write a b) :
    c ∈ m ∨ c = (a, b) := by
  induction m with
  | nil =>
    simp only [Memory.write] at h
    split at h <;> simp_all
  | cons d m ih =>
    obtain ⟨x, v⟩ := d
    simp only [Memory.write] at h
    split at h
    · split at h <;> (simp_all; try tauto)
    · split at h
      · split at h
        · exact .inl (List.mem_cons_of_mem _ h)
        · rcases List.mem_cons.mp h with h | h
          · exact .inr h
          · exact .inl (List.mem_cons_of_mem _ h)
      · rcases List.mem_cons.mp h with h | h
        · exact .inl (h ▸ List.mem_cons_self)
        · exact (ih h).imp_left (List.mem_cons_of_mem _)

/-- A write keeps the canonical form. -/
theorem Memory.write_wf {m : Memory} (a : Nat) (b : Byte) (h : m.wf) : (m.write a b).wf := by
  induction m with
  | nil =>
    simp only [Memory.write]
    split
    · exact Memory.wf_nil
    · exact ⟨by simp, by simpa⟩
  | cons d m ih =>
    obtain ⟨x, v⟩ := d
    have ht := Memory.wf_tail h
    have hx : ∀ c ∈ m, x < c.1 := fun c hc => (List.pairwise_cons.mp h.1).1 c hc
    have hv : v ≠ unlistedByte := h.2 (x, v) List.mem_cons_self
    simp only [Memory.write]
    split
    · rename_i hlt
      split
      · exact h
      · rename_i hb
        refine ⟨List.pairwise_cons.mpr ⟨fun c hc => ?_, h.1⟩, fun c hc => ?_⟩
        · rcases List.mem_cons.mp hc with rfl | hc
          · exact hlt
          · exact lt_trans hlt (hx c hc)
        · rcases List.mem_cons.mp hc with rfl | hc
          · exact hb
          · exact h.2 c hc
    · split
      · rename_i hax
        subst hax
        split
        · exact ht
        · rename_i hb
          refine ⟨List.pairwise_cons.mpr ⟨hx, ht.1⟩, fun c hc => ?_⟩
          rcases List.mem_cons.mp hc with rfl | hc
          · exact hb
          · exact ht.2 c hc
      · rename_i hlt hax
        refine ⟨List.pairwise_cons.mpr ⟨fun c hc => ?_, (ih ht).1⟩, fun c hc => ?_⟩
        · rcases Memory.write_addr hc with hc | rfl
          · exact hx c hc
          · show x < a
            omega
        · rcases List.mem_cons.mp hc with rfl | hc
          · exact hv
          · exact (ih ht).2 c hc

/-- Writing a byte string keeps the canonical form. -/
theorem Memory.writeBytes_wf {m : Memory} (a : Nat) (bs : Bytes) (h : m.wf) : (m.writeBytes a bs).wf := by
  induction bs generalizing m a with
  | nil => exact h
  | cons b bs ih => exact ih (a + 1) (Memory.write_wf a b h)

theorem Memory.ofBytes_addr {a : Nat} {bs : Bytes} {c : Host.Cell} (h : c ∈ Memory.ofBytes a bs) :
    a ≤ c.1 ∧ c.1 < a + bs.length := by
  induction bs generalizing a with
  | nil => simp [Memory.ofBytes] at h
  | cons b bs ih =>
    simp only [Memory.ofBytes] at h
    simp only [List.length_cons]
    split at h
    · have := ih h
      omega
    · rcases List.mem_cons.mp h with rfl | h
      · simp
      · have := ih h
        omega

/-- The memory of a byte string is canonical. -/
theorem Memory.ofBytes_wf (a : Nat) (bs : Bytes) : (Memory.ofBytes a bs).wf := by
  induction bs generalizing a with
  | nil => exact Memory.wf_nil
  | cons b bs ih =>
    simp only [Memory.ofBytes]
    split
    · exact ih _
    · rename_i hb
      refine ⟨List.pairwise_cons.mpr ⟨fun c hc => ?_, (ih _).1⟩, fun c hc => ?_⟩
      · have := Memory.ofBytes_addr hc
        show a < c.1
        omega
      · rcases List.mem_cons.mp hc with rfl | hc
        · exact hb
        · exact (ih _).2 c hc

/-! ### Reads -/

/-- An address below every listed one reads as unlisted. -/
theorem Memory.read_of_lt {m : Memory} {a : Nat} (h : ∀ c ∈ m, a < c.1) : m.read a = unlistedByte := by
  induction m with
  | nil => rfl
  | cons d m ih =>
    obtain ⟨x, v⟩ := d
    have hx : a < x := h (x, v) List.mem_cons_self
    simp only [Memory.read, if_neg (Nat.ne_of_gt hx)]
    exact ih fun c hc => h c (List.mem_cons_of_mem _ hc)

/-- A write is read back at its address and leaves every other address alone. -/
theorem Memory.read_write {m : Memory} (h : m.wf) (a : Nat) (b : Byte) (x : Nat) :
    (m.write a b).read x = if x = a then b else m.read x := by
  induction m with
  | nil =>
    simp only [Memory.write]
    split
    · rename_i hb
      simp only [Memory.read]
      split <;> simp_all
    · simp only [Memory.read]
      by_cases hx : a = x <;> simp [hx, eq_comm]
  | cons d m ih =>
    obtain ⟨y, v⟩ := d
    have ht := Memory.wf_tail h
    have hy : ∀ c ∈ m, y < c.1 := fun c hc => (List.pairwise_cons.mp h.1).1 c hc
    simp only [Memory.write]
    split
    · rename_i hlt
      have hr : Memory.read ((y, v) :: m) a = unlistedByte := by
        refine Memory.read_of_lt fun c hc => ?_
        rcases List.mem_cons.mp hc with rfl | hc
        · exact hlt
        · exact lt_trans hlt (hy c hc)
      split
      · rename_i hb
        split
        · rename_i hx
          rw [hx, hr, hb]
        · rfl
      · conv_lhs => rw [Memory.read]
        by_cases hx : a = x
        · simp [hx]
        · simp [hx, Ne.symm hx]
    · split
      · rename_i hay
        subst hay
        have hr : Memory.read m a = unlistedByte := Memory.read_of_lt hy
        split
        · rename_i hb
          by_cases hx : x = a
          · rw [if_pos hx, hx, hr, hb]
          · rw [if_neg hx]
            simp [Memory.read, Ne.symm hx]
        · by_cases hx : x = a
          · simp [Memory.read, hx]
          · simp [Memory.read, hx, Ne.symm hx]
      · rename_i hlt hay
        simp only [Memory.read]
        by_cases hx : y = x
        · have : x ≠ a := by omega
          simp [hx, this]
        · simp [hx, ih ht]

/-- The memory of a byte string reads as the string from its address on, and as unlisted elsewhere. -/
theorem Memory.read_ofBytes (a : Nat) (bs : Bytes) (x : Nat) :
    (Memory.ofBytes a bs).read x = if a ≤ x then bs.getD (x - a) unlistedByte else unlistedByte := by
  induction bs generalizing a with
  | nil => simp [Memory.ofBytes, Memory.read]
  | cons b bs ih =>
    have step : ∀ y, a < y → (b :: bs).getD (y - a) unlistedByte = bs.getD (y - (a + 1)) unlistedByte := by
      intro y hy
      obtain ⟨k, hk⟩ : ∃ k, y - a = k + 1 := ⟨y - a - 1, by omega⟩
      rw [hk, show y - (a + 1) = k by omega]
      simp
    simp only [Memory.ofBytes]
    split
    · rename_i hb
      rw [ih]
      by_cases h1 : a + 1 ≤ x
      · rw [if_pos h1, if_pos (by omega), step x (by omega)]
      · rw [if_neg h1]
        by_cases h2 : a ≤ x
        · have : x = a := by omega
          simp [this, hb]
        · rw [if_neg h2]
    · simp only [Memory.read]
      by_cases h0 : a = x
      · simp [h0]
      · rw [if_neg h0, ih]
        by_cases h1 : a + 1 ≤ x
        · rw [if_pos h1, if_pos (by omega), step x (by omega)]
        · rw [if_neg h1, if_neg (by omega)]

/-- Canonical memories that read alike are equal. -/
theorem Memory.ext_of_read {m m' : Memory} (h : m.wf) (h' : m'.wf) (hr : ∀ a, m.read a = m'.read a) : m = m' := by
  induction m generalizing m' with
  | nil =>
    cases m' with
    | nil => rfl
    | cons d m' =>
      obtain ⟨x, v⟩ := d
      have := hr x
      simp only [Memory.read, if_true] at this
      exact absurd this.symm (h'.2 (x, v) List.mem_cons_self)
  | cons d m ih =>
    obtain ⟨x, v⟩ := d
    have hx : ∀ c ∈ m, x < c.1 := fun c hc => (List.pairwise_cons.mp h.1).1 c hc
    have hv : v ≠ unlistedByte := h.2 (x, v) List.mem_cons_self
    cases m' with
    | nil =>
      have := hr x
      simp only [Memory.read, if_true] at this
      exact absurd this hv
    | cons d' m' =>
      obtain ⟨y, w⟩ := d'
      have hy : ∀ c ∈ m', y < c.1 := fun c hc => (List.pairwise_cons.mp h'.1).1 c hc
      have hw : w ≠ unlistedByte := h'.2 (y, w) List.mem_cons_self
      have hxy : x = y := by
        rcases Nat.lt_trichotomy x y with hlt | heq | hgt
        · have e1 := hr x
          rw [Memory.read_of_lt (m := (y, w) :: m') (by
            intro c hc
            rcases List.mem_cons.mp hc with rfl | hc
            · exact hlt
            · exact lt_trans hlt (hy c hc))] at e1
          simp only [Memory.read, if_true] at e1
          exact absurd e1 hv
        · exact heq
        · have e1 := hr y
          rw [Memory.read_of_lt (m := (x, v) :: m) (by
            intro c hc
            rcases List.mem_cons.mp hc with rfl | hc
            · exact hgt
            · exact lt_trans hgt (hx c hc))] at e1
          simp only [Memory.read, if_true] at e1
          exact absurd e1.symm hw
      subst hxy
      have hvw : v = w := by simpa [Memory.read] using hr x
      subst hvw
      congr 1
      refine ih (Memory.wf_tail h) (Memory.wf_tail h') fun a => ?_
      by_cases ha : x = a
      · subst ha
        rw [Memory.read_of_lt hx, Memory.read_of_lt hy]
      · have := hr a
        simpa [Memory.read, ha] using this

/-! ### Spans and the two read primitives -/

@[simp] theorem Memory.span_length (m : Memory) (a n : Nat) : (m.span a n).length = n := by simp [Memory.span]

/-- A span is the bytes at its addresses. -/
theorem Memory.span_getElem (m : Memory) (a n i : Nat) (h : i < (m.span a n).length) :
    (m.span a n)[i] = m.read (a + i) := by simp [Memory.span]

/-- A span splits at any length. -/
theorem Memory.span_add (m : Memory) (a n k : Nat) : m.span a (n + k) = m.span a n ++ m.span (a + n) k := by
  refine List.ext_getElem (by simp) fun i h1 h2 => ?_
  rw [Memory.span_getElem, List.getElem_append]
  split
  · rw [Memory.span_getElem]
  · rename_i hlt
    rw [Memory.span_getElem]
    simp only [Memory.span_length] at hlt ⊢
    congr 1
    omega

/-- Memories that read alike have the same spans. -/
theorem Memory.span_congr {m m' : Memory} (h : ∀ a, m.read a = m'.read a) (a n : Nat) : m.span a n = m'.span a n := by
  simp [Memory.span, h]

/-- `MemRead` answers exactly inside `PLEN`. -/
theorem State.memRead_eq_some {s : State} {a n : Nat} {b : Bytes} :
    s.memRead a n = some b ↔ a + n ≤ s.plen ∧ s.pbuf.span a n = b := by
  simp only [State.memRead]
  split <;> simp_all

/-- `MemRead` of one byte answers exactly inside `PLEN`. -/
theorem State.memByte_eq_some {s : State} {a : Nat} {b : Byte} :
    s.memByte a = some b ↔ a + 1 ≤ s.plen ∧ s.pbuf.read a = b := by
  simp only [State.memByte]
  split <;> simp_all

/-- `FrameRead` answers exactly inside `FRAME_LEN`. -/
theorem State.frameRead_eq_some {s : State} {a n : Nat} {b : Bytes} :
    s.frameRead a n = some b ↔ a + n ≤ s.inp.frameLen ∧ s.inp.frame.span a n = b := by
  simp only [State.frameRead]
  split <;> simp_all

/-- The whole of a memory made from a byte string is the string. -/
theorem Memory.span_ofBytes (bs : Bytes) : (Memory.ofBytes 0 bs).span 0 bs.length = bs := by
  refine List.ext_getElem (by simp) fun i h1 h2 => ?_
  rw [Memory.span_getElem, Memory.read_ofBytes]
  simp [h2]

end Sys2Proof.Machine
end

