-- ==== Sys2Proof/Laws/State.lean ====
section
/-! SUPPORT. One lemma a field for every update of the state: a later proof reads a field after an update from here and
unfolds no update. -/

namespace Sys2Proof.Machine

/-! ### `latch` -/

@[simp] theorem State.latch_cfg (s : State) (ctrl mid : Byte) : (s.latch ctrl mid).cfg = s.cfg := rfl
@[simp] theorem State.latch_inp (s : State) (ctrl mid : Byte) : (s.latch ctrl mid).inp = s.inp := rfl
@[simp] theorem State.latch_phase (s : State) (ctrl mid : Byte) : (s.latch ctrl mid).phase = s.phase := rfl
@[simp] theorem State.latch_offset (s : State) (ctrl mid : Byte) : (s.latch ctrl mid).offset = s.offset := rfl
@[simp] theorem State.latch_work (s : State) (ctrl mid : Byte) :
    (s.latch ctrl mid).work = { s.work with ctrl := ctrl, dlen := ctrlDlen ctrl, dfmt := ctrlDfmt ctrl, mid := mid, next := s.offset + 2 + (ctrlDlen ctrl).toNat } := rfl
@[simp] theorem State.latch_pbuf (s : State) (ctrl mid : Byte) : (s.latch ctrl mid).pbuf = s.pbuf := rfl
@[simp] theorem State.latch_plen (s : State) (ctrl mid : Byte) : (s.latch ctrl mid).plen = s.plen := rfl
@[simp] theorem State.latch_ctx (s : State) (ctrl mid : Byte) : (s.latch ctrl mid).ctx = s.ctx := rfl
@[simp] theorem State.latch_out (s : State) (ctrl mid : Byte) : (s.latch ctrl mid).out = s.out := rfl
@[simp] theorem State.latch_draws (s : State) (ctrl mid : Byte) : (s.latch ctrl mid).draws = s.draws := rfl

/-! ### `setRaw` -/

@[simp] theorem State.setRaw_cfg (s : State) (raw : Bytes) : (s.setRaw raw).cfg = s.cfg := rfl
@[simp] theorem State.setRaw_inp (s : State) (raw : Bytes) : (s.setRaw raw).inp = s.inp := rfl
@[simp] theorem State.setRaw_phase (s : State) (raw : Bytes) : (s.setRaw raw).phase = s.phase := rfl
@[simp] theorem State.setRaw_offset (s : State) (raw : Bytes) : (s.setRaw raw).offset = s.offset := rfl
@[simp] theorem State.setRaw_work (s : State) (raw : Bytes) : (s.setRaw raw).work = { s.work with raw := raw } := rfl
@[simp] theorem State.setRaw_pbuf (s : State) (raw : Bytes) : (s.setRaw raw).pbuf = s.pbuf := rfl
@[simp] theorem State.setRaw_plen (s : State) (raw : Bytes) : (s.setRaw raw).plen = s.plen := rfl
@[simp] theorem State.setRaw_ctx (s : State) (raw : Bytes) : (s.setRaw raw).ctx = s.ctx := rfl
@[simp] theorem State.setRaw_out (s : State) (raw : Bytes) : (s.setRaw raw).out = s.out := rfl
@[simp] theorem State.setRaw_draws (s : State) (raw : Bytes) : (s.setRaw raw).draws = s.draws := rfl

/-! ### `advance` -/

@[simp] theorem State.advance_cfg (s : State) : s.advance.cfg = s.cfg := rfl
@[simp] theorem State.advance_inp (s : State) : s.advance.inp = s.inp := rfl
@[simp] theorem State.advance_phase (s : State) : s.advance.phase = s.phase := rfl
@[simp] theorem State.advance_offset (s : State) : s.advance.offset = s.work.next := rfl
@[simp] theorem State.advance_work (s : State) : s.advance.work = s.work := rfl
@[simp] theorem State.advance_pbuf (s : State) : s.advance.pbuf = s.pbuf := rfl
@[simp] theorem State.advance_plen (s : State) : s.advance.plen = s.plen := rfl
@[simp] theorem State.advance_ctx (s : State) : s.advance.ctx = s.ctx := rfl
@[simp] theorem State.advance_out (s : State) : s.advance.out = s.out := rfl
@[simp] theorem State.advance_draws (s : State) : s.advance.draws = s.draws := rfl

/-! ### `appendResult` -/

@[simp] theorem State.appendResult_cfg (s : State) (v : DecodedValue) : (s.appendResult v).cfg = s.cfg := rfl
@[simp] theorem State.appendResult_inp (s : State) (v : DecodedValue) : (s.appendResult v).inp = s.inp := rfl
@[simp] theorem State.appendResult_phase (s : State) (v : DecodedValue) : (s.appendResult v).phase = s.phase := rfl
@[simp] theorem State.appendResult_offset (s : State) (v : DecodedValue) : (s.appendResult v).offset = s.offset := rfl
@[simp] theorem State.appendResult_work (s : State) (v : DecodedValue) : (s.appendResult v).work = s.work := rfl
@[simp] theorem State.appendResult_pbuf (s : State) (v : DecodedValue) : (s.appendResult v).pbuf = s.pbuf := rfl
@[simp] theorem State.appendResult_plen (s : State) (v : DecodedValue) : (s.appendResult v).plen = s.plen := rfl
@[simp] theorem State.appendResult_ctx (s : State) (v : DecodedValue) : (s.appendResult v).ctx = s.ctx := rfl
@[simp] theorem State.appendResult_out (s : State) (v : DecodedValue) :
    (s.appendResult v).out = { s.out with results := s.out.results ++ [(s.work.mid, v)] } := rfl
@[simp] theorem State.appendResult_draws (s : State) (v : DecodedValue) : (s.appendResult v).draws = s.draws := rfl

/-! ### `countKnown` -/

@[simp] theorem State.countKnown_cfg (s : State) : s.countKnown.cfg = s.cfg := rfl
@[simp] theorem State.countKnown_inp (s : State) : s.countKnown.inp = s.inp := rfl
@[simp] theorem State.countKnown_phase (s : State) : s.countKnown.phase = s.phase := rfl
@[simp] theorem State.countKnown_offset (s : State) : s.countKnown.offset = s.offset := rfl
@[simp] theorem State.countKnown_work (s : State) : s.countKnown.work = s.work := rfl
@[simp] theorem State.countKnown_pbuf (s : State) : s.countKnown.pbuf = s.pbuf := rfl
@[simp] theorem State.countKnown_plen (s : State) : s.countKnown.plen = s.plen := rfl
@[simp] theorem State.countKnown_ctx (s : State) : s.countKnown.ctx = s.ctx := rfl
@[simp] theorem State.countKnown_out (s : State) :
    s.countKnown.out = { s.out with knownCount := s.out.knownCount + 1 } := rfl
@[simp] theorem State.countKnown_draws (s : State) : s.countKnown.draws = s.draws := rfl

/-! ### `appendKnown` -/

@[simp] theorem State.appendKnown_cfg (s : State) (v : DecodedValue) : (s.appendKnown v).cfg = s.cfg := rfl
@[simp] theorem State.appendKnown_inp (s : State) (v : DecodedValue) : (s.appendKnown v).inp = s.inp := rfl
@[simp] theorem State.appendKnown_phase (s : State) (v : DecodedValue) : (s.appendKnown v).phase = s.phase := rfl
@[simp] theorem State.appendKnown_offset (s : State) (v : DecodedValue) : (s.appendKnown v).offset = s.offset := rfl
@[simp] theorem State.appendKnown_work (s : State) (v : DecodedValue) : (s.appendKnown v).work = s.work := rfl
@[simp] theorem State.appendKnown_pbuf (s : State) (v : DecodedValue) : (s.appendKnown v).pbuf = s.pbuf := rfl
@[simp] theorem State.appendKnown_plen (s : State) (v : DecodedValue) : (s.appendKnown v).plen = s.plen := rfl
@[simp] theorem State.appendKnown_ctx (s : State) (v : DecodedValue) : (s.appendKnown v).ctx = s.ctx := rfl
@[simp] theorem State.appendKnown_out (s : State) (v : DecodedValue) :
    (s.appendKnown v).out = { s.out with results := s.out.results ++ [(s.work.mid, v)], knownCount := s.out.knownCount + 1 } := rfl
@[simp] theorem State.appendKnown_draws (s : State) (v : DecodedValue) : (s.appendKnown v).draws = s.draws := rfl

/-! ### `insertNotice` -/

@[simp] theorem State.insertNotice_cfg (s : State) : s.insertNotice.cfg = s.cfg := rfl
@[simp] theorem State.insertNotice_inp (s : State) : s.insertNotice.inp = s.inp := rfl
@[simp] theorem State.insertNotice_phase (s : State) : s.insertNotice.phase = s.phase := rfl
@[simp] theorem State.insertNotice_offset (s : State) : s.insertNotice.offset = s.offset := rfl
@[simp] theorem State.insertNotice_work (s : State) : s.insertNotice.work = s.work := rfl
@[simp] theorem State.insertNotice_pbuf (s : State) : s.insertNotice.pbuf = s.pbuf := rfl
@[simp] theorem State.insertNotice_plen (s : State) : s.insertNotice.plen = s.plen := rfl
@[simp] theorem State.insertNotice_ctx (s : State) : s.insertNotice.ctx = s.ctx := rfl
@[simp] theorem State.insertNotice_out (s : State) :
    s.insertNotice.out = { s.out with notices := insertId s.work.mid s.out.notices } := rfl
@[simp] theorem State.insertNotice_draws (s : State) : s.insertNotice.draws = s.draws := rfl

/-! ### `raiseRecord` -/

@[simp] theorem State.raiseRecord_cfg (s : State) (kind : ErrorKind) : (s.raiseRecord kind).cfg = s.cfg := rfl
@[simp] theorem State.raiseRecord_inp (s : State) (kind : ErrorKind) : (s.raiseRecord kind).inp = s.inp := rfl
@[simp] theorem State.raiseRecord_phase (s : State) (kind : ErrorKind) : (s.raiseRecord kind).phase = s.phase := rfl
@[simp] theorem State.raiseRecord_offset (s : State) (kind : ErrorKind) :
    (s.raiseRecord kind).offset = s.offset := rfl
@[simp] theorem State.raiseRecord_work (s : State) (kind : ErrorKind) : (s.raiseRecord kind).work = s.work := rfl
@[simp] theorem State.raiseRecord_pbuf (s : State) (kind : ErrorKind) : (s.raiseRecord kind).pbuf = s.pbuf := rfl
@[simp] theorem State.raiseRecord_plen (s : State) (kind : ErrorKind) : (s.raiseRecord kind).plen = s.plen := rfl
@[simp] theorem State.raiseRecord_ctx (s : State) (kind : ErrorKind) : (s.raiseRecord kind).ctx = s.ctx := rfl
@[simp] theorem State.raiseRecord_out (s : State) (kind : ErrorKind) :
    (s.raiseRecord kind).out = { s.out with errors := s.out.errors ++ [⟨s.offset, s.work.mid, kind⟩] } := rfl
@[simp] theorem State.raiseRecord_draws (s : State) (kind : ErrorKind) : (s.raiseRecord kind).draws = s.draws := rfl

/-! ### `tookDraw` -/

@[simp] theorem State.tookDraw_cfg (s : State) : s.tookDraw.cfg = s.cfg := rfl
@[simp] theorem State.tookDraw_inp (s : State) : s.tookDraw.inp = s.inp := rfl
@[simp] theorem State.tookDraw_phase (s : State) : s.tookDraw.phase = s.phase := rfl
@[simp] theorem State.tookDraw_offset (s : State) : s.tookDraw.offset = s.offset := rfl
@[simp] theorem State.tookDraw_work (s : State) : s.tookDraw.work = s.work := rfl
@[simp] theorem State.tookDraw_pbuf (s : State) : s.tookDraw.pbuf = s.pbuf := rfl
@[simp] theorem State.tookDraw_plen (s : State) : s.tookDraw.plen = s.plen := rfl
@[simp] theorem State.tookDraw_ctx (s : State) : s.tookDraw.ctx = s.ctx := rfl
@[simp] theorem State.tookDraw_out (s : State) : s.tookDraw.out = s.out := rfl
@[simp] theorem State.tookDraw_draws (s : State) : s.tookDraw.draws = s.draws + 1 := rfl

/-! ### `takeOutputs` -/

@[simp] theorem State.takeOutputs_cfg (s : State) (t : State) : (s.takeOutputs t).cfg = s.cfg := rfl
@[simp] theorem State.takeOutputs_inp (s : State) (t : State) : (s.takeOutputs t).inp = s.inp := rfl
@[simp] theorem State.takeOutputs_phase (s : State) (t : State) : (s.takeOutputs t).phase = s.phase := rfl
@[simp] theorem State.takeOutputs_offset (s : State) (t : State) : (s.takeOutputs t).offset = s.offset := rfl
@[simp] theorem State.takeOutputs_work (s : State) (t : State) : (s.takeOutputs t).work = s.work := rfl
@[simp] theorem State.takeOutputs_pbuf (s : State) (t : State) : (s.takeOutputs t).pbuf = s.pbuf := rfl
@[simp] theorem State.takeOutputs_plen (s : State) (t : State) : (s.takeOutputs t).plen = s.plen := rfl
@[simp] theorem State.takeOutputs_ctx (s : State) (t : State) : (s.takeOutputs t).ctx = s.ctx := rfl
@[simp] theorem State.takeOutputs_out (s : State) (t : State) : (s.takeOutputs t).out = t.out := rfl
@[simp] theorem State.takeOutputs_draws (s : State) (t : State) : (s.takeOutputs t).draws = t.draws := rfl

/-! ### `beginCall` -/

@[simp] theorem State.beginCall_cfg (s : State) : s.beginCall.cfg = s.cfg := rfl
@[simp] theorem State.beginCall_inp (s : State) : s.beginCall.inp = s.inp := rfl
@[simp] theorem State.beginCall_phase (s : State) : s.beginCall.phase = .idle := rfl
@[simp] theorem State.beginCall_offset (s : State) : s.beginCall.offset = 0 := rfl
@[simp] theorem State.beginCall_work (s : State) : s.beginCall.work = Work.reset := rfl
@[simp] theorem State.beginCall_pbuf (s : State) : s.beginCall.pbuf = [] := rfl
@[simp] theorem State.beginCall_plen (s : State) : s.beginCall.plen = 0 := rfl
@[simp] theorem State.beginCall_ctx (s : State) : s.beginCall.ctx = EncContext.reset := rfl
@[simp] theorem State.beginCall_out (s : State) : s.beginCall.out = Outputs.reset := rfl
@[simp] theorem State.beginCall_draws (s : State) : s.beginCall.draws = s.draws := rfl

/-! ### `fillPlain` -/

@[simp] theorem State.fillPlain_cfg (s : State) : s.fillPlain.cfg = s.cfg := rfl
@[simp] theorem State.fillPlain_inp (s : State) : s.fillPlain.inp = s.inp := rfl
@[simp] theorem State.fillPlain_phase (s : State) : s.fillPlain.phase = s.phase := rfl
@[simp] theorem State.fillPlain_offset (s : State) : s.fillPlain.offset = s.offset := rfl
@[simp] theorem State.fillPlain_work (s : State) : s.fillPlain.work = s.work := rfl
@[simp] theorem State.fillPlain_pbuf (s : State) : s.fillPlain.pbuf = s.inp.frame := rfl
@[simp] theorem State.fillPlain_plen (s : State) : s.fillPlain.plen = s.inp.frameLen := rfl
@[simp] theorem State.fillPlain_ctx (s : State) : s.fillPlain.ctx = s.ctx := rfl
@[simp] theorem State.fillPlain_out (s : State) : s.fillPlain.out = s.out := rfl
@[simp] theorem State.fillPlain_draws (s : State) : s.fillPlain.draws = s.draws := rfl

/-! ### `fillDecrypted` -/

@[simp] theorem State.fillDecrypted_cfg (s : State) (pt : Bytes) : (s.fillDecrypted pt).cfg = s.cfg := rfl
@[simp] theorem State.fillDecrypted_inp (s : State) (pt : Bytes) : (s.fillDecrypted pt).inp = s.inp := rfl
@[simp] theorem State.fillDecrypted_phase (s : State) (pt : Bytes) : (s.fillDecrypted pt).phase = s.phase := rfl
@[simp] theorem State.fillDecrypted_offset (s : State) (pt : Bytes) : (s.fillDecrypted pt).offset = s.offset := rfl
@[simp] theorem State.fillDecrypted_work (s : State) (pt : Bytes) : (s.fillDecrypted pt).work = s.work := rfl
@[simp] theorem State.fillDecrypted_pbuf (s : State) (pt : Bytes) :
    (s.fillDecrypted pt).pbuf = Memory.ofBytes 0 pt := rfl
@[simp] theorem State.fillDecrypted_plen (s : State) (pt : Bytes) :
    (s.fillDecrypted pt).plen = s.inp.frameLen - 8 := rfl
@[simp] theorem State.fillDecrypted_ctx (s : State) (pt : Bytes) : (s.fillDecrypted pt).ctx = s.ctx := rfl
@[simp] theorem State.fillDecrypted_out (s : State) (pt : Bytes) :
    (s.fillDecrypted pt).out = { s.out with keyVerified := some true, decryptOk := some true } := rfl
@[simp] theorem State.fillDecrypted_draws (s : State) (pt : Bytes) : (s.fillDecrypted pt).draws = s.draws := rfl

/-! ### `setContext` -/

@[simp] theorem State.setContext_cfg (s : State) (ct counter mic : Bytes) :
    (s.setContext ct counter mic).cfg = s.cfg := rfl
@[simp] theorem State.setContext_inp (s : State) (ct counter mic : Bytes) :
    (s.setContext ct counter mic).inp = s.inp := rfl
@[simp] theorem State.setContext_phase (s : State) (ct counter mic : Bytes) :
    (s.setContext ct counter mic).phase = s.phase := rfl
@[simp] theorem State.setContext_offset (s : State) (ct counter mic : Bytes) :
    (s.setContext ct counter mic).offset = s.offset := rfl
@[simp] theorem State.setContext_work (s : State) (ct counter mic : Bytes) :
    (s.setContext ct counter mic).work = s.work := rfl
@[simp] theorem State.setContext_pbuf (s : State) (ct counter mic : Bytes) :
    (s.setContext ct counter mic).pbuf = s.pbuf := rfl
@[simp] theorem State.setContext_plen (s : State) (ct counter mic : Bytes) :
    (s.setContext ct counter mic).plen = s.plen := rfl
@[simp] theorem State.setContext_ctx (s : State) (ct counter mic : Bytes) :
    (s.setContext ct counter mic).ctx = ⟨ct, bytes4 counter, bytes4 mic, makeNonce s.inp.mac (bytes4 counter)⟩ := rfl
@[simp] theorem State.setContext_out (s : State) (ct counter mic : Bytes) :
    (s.setContext ct counter mic).out = s.out := rfl
@[simp] theorem State.setContext_draws (s : State) (ct counter mic : Bytes) :
    (s.setContext ct counter mic).draws = s.draws := rfl

/-! ### `enterOpen` -/

@[simp] theorem State.enterOpen_cfg (s : State) : s.enterOpen.cfg = s.cfg := rfl
@[simp] theorem State.enterOpen_inp (s : State) : s.enterOpen.inp = s.inp := rfl
@[simp] theorem State.enterOpen_phase (s : State) : s.enterOpen.phase = .opening := rfl
@[simp] theorem State.enterOpen_offset (s : State) : s.enterOpen.offset = s.offset := rfl
@[simp] theorem State.enterOpen_work (s : State) : s.enterOpen.work = s.work := rfl
@[simp] theorem State.enterOpen_pbuf (s : State) : s.enterOpen.pbuf = s.pbuf := rfl
@[simp] theorem State.enterOpen_plen (s : State) : s.enterOpen.plen = s.plen := rfl
@[simp] theorem State.enterOpen_ctx (s : State) : s.enterOpen.ctx = s.ctx := rfl
@[simp] theorem State.enterOpen_out (s : State) : s.enterOpen.out = s.out := rfl
@[simp] theorem State.enterOpen_draws (s : State) : s.enterOpen.draws = s.draws := rfl

/-! ### `startScan` -/

@[simp] theorem State.startScan_cfg (s : State) : s.startScan.cfg = s.cfg := rfl
@[simp] theorem State.startScan_inp (s : State) : s.startScan.inp = s.inp := rfl
@[simp] theorem State.startScan_phase (s : State) : s.startScan.phase = .scan := rfl
@[simp] theorem State.startScan_offset (s : State) : s.startScan.offset = 0 := rfl
@[simp] theorem State.startScan_work (s : State) : s.startScan.work = s.work := rfl
@[simp] theorem State.startScan_pbuf (s : State) : s.startScan.pbuf = s.pbuf := rfl
@[simp] theorem State.startScan_plen (s : State) : s.startScan.plen = s.plen := rfl
@[simp] theorem State.startScan_ctx (s : State) : s.startScan.ctx = s.ctx := rfl
@[simp] theorem State.startScan_out (s : State) :
    s.startScan.out = { s.out with truncated := false, results := [], notices := [], errors := [], knownCount := 0 } := rfl
@[simp] theorem State.startScan_draws (s : State) : s.startScan.draws = s.draws := rfl

/-! ### `raiseFatal` -/

@[simp] theorem State.raiseFatal_cfg (s : State) (kind : FatalKind) : (s.raiseFatal kind).cfg = s.cfg := rfl
@[simp] theorem State.raiseFatal_inp (s : State) (kind : FatalKind) : (s.raiseFatal kind).inp = s.inp := rfl
@[simp] theorem State.raiseFatal_phase (s : State) (kind : FatalKind) : (s.raiseFatal kind).phase = .done := rfl
@[simp] theorem State.raiseFatal_offset (s : State) (kind : FatalKind) : (s.raiseFatal kind).offset = s.offset := rfl
@[simp] theorem State.raiseFatal_work (s : State) (kind : FatalKind) : (s.raiseFatal kind).work = s.work := rfl
@[simp] theorem State.raiseFatal_pbuf (s : State) (kind : FatalKind) : (s.raiseFatal kind).pbuf = s.pbuf := rfl
@[simp] theorem State.raiseFatal_plen (s : State) (kind : FatalKind) : (s.raiseFatal kind).plen = s.plen := rfl
@[simp] theorem State.raiseFatal_ctx (s : State) (kind : FatalKind) : (s.raiseFatal kind).ctx = s.ctx := rfl
@[simp] theorem State.raiseFatal_out (s : State) (kind : FatalKind) :
    (s.raiseFatal kind).out = { s.out with status := kind.status, decryptOk := some false, keyVerified := kind.keyVerified } := rfl
@[simp] theorem State.raiseFatal_draws (s : State) (kind : FatalKind) : (s.raiseFatal kind).draws = s.draws := rfl

/-! ### `finishScan` -/

@[simp] theorem State.finishScan_cfg (s : State) : s.finishScan.cfg = s.cfg := rfl
@[simp] theorem State.finishScan_inp (s : State) : s.finishScan.inp = s.inp := rfl
@[simp] theorem State.finishScan_phase (s : State) : s.finishScan.phase = .done := rfl
@[simp] theorem State.finishScan_offset (s : State) : s.finishScan.offset = s.offset := rfl
@[simp] theorem State.finishScan_work (s : State) : s.finishScan.work = s.work := rfl
@[simp] theorem State.finishScan_pbuf (s : State) : s.finishScan.pbuf = s.pbuf := rfl
@[simp] theorem State.finishScan_plen (s : State) : s.finishScan.plen = s.plen := rfl
@[simp] theorem State.finishScan_ctx (s : State) : s.finishScan.ctx = s.ctx := rfl
@[simp] theorem State.finishScan_out (s : State) :
    s.finishScan.out = { s.out with success := decide (0 < s.out.knownCount), status := .ok } := rfl
@[simp] theorem State.finishScan_draws (s : State) : s.finishScan.draws = s.draws := rfl

/-! ### `setTruncated` -/

@[simp] theorem State.setTruncated_cfg (s : State) : s.setTruncated.cfg = s.cfg := rfl
@[simp] theorem State.setTruncated_inp (s : State) : s.setTruncated.inp = s.inp := rfl
@[simp] theorem State.setTruncated_phase (s : State) : s.setTruncated.phase = s.phase := rfl
@[simp] theorem State.setTruncated_offset (s : State) : s.setTruncated.offset = s.offset := rfl
@[simp] theorem State.setTruncated_work (s : State) : s.setTruncated.work = s.work := rfl
@[simp] theorem State.setTruncated_pbuf (s : State) : s.setTruncated.pbuf = s.pbuf := rfl
@[simp] theorem State.setTruncated_plen (s : State) : s.setTruncated.plen = s.plen := rfl
@[simp] theorem State.setTruncated_ctx (s : State) : s.setTruncated.ctx = s.ctx := rfl
@[simp] theorem State.setTruncated_out (s : State) : s.setTruncated.out = { s.out with truncated := true } := rfl
@[simp] theorem State.setTruncated_draws (s : State) : s.setTruncated.draws = s.draws := rfl

/-! ### `stopNotApplicable` -/

@[simp] theorem State.stopNotApplicable_cfg (s : State) : s.stopNotApplicable.cfg = s.cfg := rfl
@[simp] theorem State.stopNotApplicable_inp (s : State) : s.stopNotApplicable.inp = s.inp := rfl
@[simp] theorem State.stopNotApplicable_phase (s : State) : s.stopNotApplicable.phase = .done := rfl
@[simp] theorem State.stopNotApplicable_offset (s : State) : s.stopNotApplicable.offset = s.offset := rfl
@[simp] theorem State.stopNotApplicable_work (s : State) : s.stopNotApplicable.work = s.work := rfl
@[simp] theorem State.stopNotApplicable_pbuf (s : State) : s.stopNotApplicable.pbuf = s.pbuf := rfl
@[simp] theorem State.stopNotApplicable_plen (s : State) : s.stopNotApplicable.plen = s.plen := rfl
@[simp] theorem State.stopNotApplicable_ctx (s : State) : s.stopNotApplicable.ctx = s.ctx := rfl
@[simp] theorem State.stopNotApplicable_out (s : State) :
    s.stopNotApplicable.out = { s.out with status := .notApplicable } := rfl
@[simp] theorem State.stopNotApplicable_draws (s : State) : s.stopNotApplicable.draws = s.draws := rfl

/-! ### What the host reads -/

@[simp] theorem State.afterCall_of_done {α : Type} {s : State} (h : s.phase = .done) (v : α) :
    s.afterCall v = some v := if_pos h

@[simp] theorem State.afterCall_of_running {α : Type} {s : State} (h : s.phase ≠ .done) (v : α) :
    s.afterCall v = none := if_neg h

end Sys2Proof.Machine
end

