-- ==== Sys2Proof/Laws/Frames.lean ====
section
/-! SUPPORT. The Decryptor and the frame-level operations (44_decryptor.md R190, 46_orchestrator.md R251 to R254): what
`openFrame` can answer, said once, and its four fatal cases. -/

namespace Sys2Proof.Machine

/-- The start of a call sees only the inputs, the configuration and the draw counter. -/
theorem beginCall_congr {s t : State} (hi : s.inp = t.inp) (hc : s.cfg = t.cfg) (hd : s.draws = t.draws) :
    s.beginCall = t.beginCall := by simp [State.beginCall, hi, hc, hd]

/-- Every slice of a frame of at least 15 bytes lies inside it (20 R57), so the open is reached. -/
theorem openFrame_reaches {s : State} (hp : s.inp.keyPresent = true) (hk : s.inp.key.length = 16)
    (hn : 15 ≤ s.inp.frameLen) (hm : s.inp.frameLen - 8 < 2 ^ 24) :
    openFrame s =
      .next (verifyAndFill (s.setContext (s.inp.frame.span 0 (s.inp.frameLen - 8))
        (s.inp.frame.span (s.inp.frameLen - 8) 4) (s.inp.frame.span (s.inp.frameLen - 4) 4))) := by
  have h1 : s.frameRead 0 (s.inp.frameLen - 8) = some (s.inp.frame.span 0 (s.inp.frameLen - 8)) :=
    State.frameRead_eq_some.mpr ⟨by omega, rfl⟩
  have h2 : s.frameRead (s.inp.frameLen - 8) 4 = some (s.inp.frame.span (s.inp.frameLen - 8) 4) :=
    State.frameRead_eq_some.mpr ⟨by omega, rfl⟩
  have h3 : s.frameRead (s.inp.frameLen - 4) 4 = some (s.inp.frame.span (s.inp.frameLen - 4) 4) :=
    State.frameRead_eq_some.mpr ⟨by omega, rfl⟩
  have e1 : ¬ s.inp.frameLen < Config.minEncLen := by simp only [Config.minEncLen]; omega
  have e2 : ¬ Config.ccmLimit ≤ s.inp.frameLen - (Config.ctrBytes + Config.tagBytes) := by
    simp only [Config.ccmLimit, Config.ctrBytes, Config.tagBytes]; omega
  simp only [openFrame, hp, hk, if_neg e1, if_neg e2, Config.keyBytes]
  simp only [Config.ctrBytes, Config.tagBytes, Nat.reduceAdd, h1, h2, h3]
  simp

theorem openFrame_missingKey {s : State} (hp : s.inp.keyPresent = false) :
    openFrame s = .next (s.raiseFatal .missingKey) := by simp [openFrame, hp]

theorem openFrame_invalidKeyLength {s : State} (hp : s.inp.keyPresent = true) (hk : s.inp.key.length ≠ 16) :
    openFrame s = .next (s.raiseFatal .invalidKeyLength) := by simp [openFrame, hp, Config.keyBytes, hk]

theorem openFrame_truncatedPayload {s : State} (hp : s.inp.keyPresent = true) (hk : s.inp.key.length = 16)
    (hn : s.inp.frameLen < 15) : openFrame s = .next (s.raiseFatal .truncatedPayload) := by
  simp [openFrame, hp, Config.keyBytes, Config.minEncLen, hk, hn]

theorem openFrame_refused {s : State} (hp : s.inp.keyPresent = true) (hk : s.inp.key.length = 16)
    (hm : 2 ^ 24 ≤ s.inp.frameLen - 8) : openFrame s = .refused .ccmLengthField := by
  have e1 : ¬ s.inp.frameLen < Config.minEncLen := by simp only [Config.minEncLen]; omega
  have e2 : Config.ccmLimit ≤ s.inp.frameLen - (Config.ctrBytes + Config.tagBytes) := by
    simp only [Config.ccmLimit, Config.ctrBytes, Config.tagBytes]; omega
  simp [openFrame, hp, Config.keyBytes, hk, e1, e2]

/-- All that `openFrame` can answer. -/
theorem openFrame_cases (s : State) :
    (∃ k, k ≠ FatalKind.authenticationFailed ∧ openFrame s = .next (s.raiseFatal k)) ∨
    (openFrame s = .refused .ccmLengthField ∧ 2 ^ 24 ≤ s.inp.frameLen - 8) ∨
    (s.inp.key.length = 16 ∧ 15 ≤ s.inp.frameLen ∧
      openFrame s =
        .next (verifyAndFill (s.setContext (s.inp.frame.span 0 (s.inp.frameLen - 8))
          (s.inp.frame.span (s.inp.frameLen - 8) 4) (s.inp.frame.span (s.inp.frameLen - 4) 4)))) := by
  by_cases hp : s.inp.keyPresent = false
  · exact .inl ⟨_, by decide, openFrame_missingKey hp⟩
  have hp : s.inp.keyPresent = true := by simpa using hp
  by_cases hk : s.inp.key.length = 16
  · by_cases hn : s.inp.frameLen < 15
    · exact .inl ⟨_, by decide, openFrame_truncatedPayload hp hk hn⟩
    by_cases hm : s.inp.frameLen - 8 < 2 ^ 24
    · exact .inr (.inr ⟨hk, by omega, openFrame_reaches hp hk (by omega) hm⟩)
    · exact .inr (.inl ⟨openFrame_refused hp hk (by omega), by omega⟩)
  · exact .inl ⟨_, by decide, openFrame_invalidKeyLength hp hk⟩

/-- The tag verifies: `PBUF` is filled and the scan starts (44 R200). -/
theorem verifyAndFill_some {s : State} {pt : Bytes}
    (h : aeadOpen s.inp.key s.ctx.nonce Config.aad s.ctx.ct s.ctx.mic = some pt) :
    verifyAndFill s = (s.fillDecrypted pt).startScan := by simp [verifyAndFill, h]

/-- The tag does not verify (44 R201). -/
theorem verifyAndFill_none {s : State}
    (h : aeadOpen s.inp.key s.ctx.nonce Config.aad s.ctx.ct s.ctx.mic = none) :
    verifyAndFill s = s.raiseFatal .authenticationFailed := by simp [verifyAndFill, h]

end Sys2Proof.Machine
end

