-- ==== Sys2Proof/Laws/Operands.lean ====
section
/-! SUPPORT. When the integer operands are defined (41_numeric_codec.md R118) and what they are. How the text operand reads a payload, one law for each row of the table of 41_numeric_codec.md R127, and
the scalar values of its rows as sums. -/

namespace Sys2Proof.Machine

/-! ### Integers -/

@[simp] theorem unsignedOperand_nil : unsignedOperand [] = none := rfl

@[simp] theorem signedOperand_nil : signedOperand [] = none := rfl

theorem unsignedOperand_of_length {raw : Bytes} (h : 1 ≤ raw.length) : unsignedOperand raw = some (leNat raw : Int) := by
  cases raw with
  | nil => simp at h
  | cons b bs => rfl

theorem sext_of_pos {n : Nat} (h : 1 ≤ n) (v : Nat) :
    sext n v = some (if v < 2 ^ (n - 1) then (v : Int) else (v : Int) - 2 ^ n) := by
  obtain ⟨k, rfl⟩ := Nat.exists_eq_add_of_le' h
  rfl

theorem signedOperand_of_length {raw : Bytes} (h : 1 ≤ raw.length) :
    signedOperand raw = some (if leNat raw < 2 ^ (8 * raw.length - 1) then (leNat raw : Int)
      else (leNat raw : Int) - 2 ^ (8 * raw.length)) := sext_of_pos (by omega) _

/-! ### Texts -/

theorem textOperand_one {b1 : Byte} {t : Bytes} (h : utf8One b1 = true) :
    textOperand (b1 :: t) = (textOperand t).map (Char.ofNat b1.toNat :: ·) := by
  conv_lhs => unfold textOperand
  rw [if_pos h]

theorem textOperand_two {b1 b2 : Byte} {t : Bytes} (h1 : ¬ utf8One b1 = true) (h2 : utf8Two b1 b2 = true) :
    textOperand (b1 :: b2 :: t) = (textOperand t).map (scalarTwo b1 b2 :: ·) := by
  conv_lhs => unfold textOperand
  simp only [if_neg h1, if_pos h2]

theorem textOperand_three {b1 b2 b3 : Byte} {t : Bytes} (h1 : ¬ utf8One b1 = true) (h2 : ¬ utf8Two b1 b2 = true)
    (h3 : utf8Three b1 b2 b3 = true) :
    textOperand (b1 :: b2 :: b3 :: t) = (textOperand t).map (scalarThree b1 b2 b3 :: ·) := by
  conv_lhs => unfold textOperand
  simp only [if_neg h1, if_neg h2, if_pos h3]

theorem textOperand_four {b1 b2 b3 b4 : Byte} {t : Bytes} (h1 : ¬ utf8One b1 = true) (h2 : ¬ utf8Two b1 b2 = true)
    (h3 : ¬ utf8Three b1 b2 b3 = true) (h4 : utf8Four b1 b2 b3 b4 = true) :
    textOperand (b1 :: b2 :: b3 :: b4 :: t) = (textOperand t).map (scalarFour b1 b2 b3 b4 :: ·) := by
  conv_lhs => unfold textOperand
  simp only [if_neg h1, if_neg h2, if_neg h3, if_pos h4]

/-- A text read from a nonempty payload comes from one of the four rows. -/
theorem textOperand_cons_some {b1 : Byte} {t : Bytes} {text : List Char} (h : textOperand (b1 :: t) = some text) :
    (utf8One b1 = true ∧ ∃ u, textOperand t = some u ∧ text = Char.ofNat b1.toNat :: u) ∨
    (∃ b2 t2 u, t = b2 :: t2 ∧ utf8Two b1 b2 = true ∧ textOperand t2 = some u ∧ text = scalarTwo b1 b2 :: u) ∨
    (∃ b2 b3 t3 u, t = b2 :: b3 :: t3 ∧ utf8Three b1 b2 b3 = true ∧ textOperand t3 = some u ∧
      text = scalarThree b1 b2 b3 :: u) ∨
    ∃ b2 b3 b4 t4 u, t = b2 :: b3 :: b4 :: t4 ∧ utf8Four b1 b2 b3 b4 = true ∧ textOperand t4 = some u ∧
      text = scalarFour b1 b2 b3 b4 :: u := by
  by_cases h1 : utf8One b1 = true
  · rw [textOperand_one h1] at h
    obtain ⟨u, hu, rfl⟩ := Option.map_eq_some_iff.mp h
    exact .inl ⟨h1, u, hu, rfl⟩
  match t, h with
  | [], h =>
    unfold textOperand at h
    simp [h1] at h
  | b2 :: t2, h =>
    by_cases h2 : utf8Two b1 b2 = true
    · rw [textOperand_two h1 h2] at h
      obtain ⟨u, hu, rfl⟩ := Option.map_eq_some_iff.mp h
      exact .inr (.inl ⟨b2, t2, u, rfl, h2, hu, rfl⟩)
    match t2, h with
    | [], h =>
      unfold textOperand at h
      simp [h1, h2] at h
    | b3 :: t3, h =>
      by_cases h3 : utf8Three b1 b2 b3 = true
      · rw [textOperand_three h1 h2 h3] at h
        obtain ⟨u, hu, rfl⟩ := Option.map_eq_some_iff.mp h
        exact .inr (.inr (.inl ⟨b2, b3, t3, u, rfl, h3, hu, rfl⟩))
      match t3, h with
      | [], h =>
        unfold textOperand at h
        simp [h1, h2, h3] at h
      | b4 :: t4, h =>
        by_cases h4 : utf8Four b1 b2 b3 b4 = true
        · rw [textOperand_four h1 h2 h3 h4] at h
          obtain ⟨u, hu, rfl⟩ := Option.map_eq_some_iff.mp h
          exact .inr (.inr (.inr ⟨b2, b3, b4, t4, u, rfl, h4, hu, rfl⟩))
        · unfold textOperand at h
          simp [h1, h2, h3, h4] at h

/-! ### Scalar values as sums -/

theorem shiftLeft_or {a b k : Nat} (h : b < 2 ^ k) : a <<< k ||| b = a * 2 ^ k + b := by
  rw [← Nat.shiftLeft_add_eq_or_of_lt h, Nat.shiftLeft_eq]

theorem scalarTwo_eq (b1 b2 : Byte) : scalarTwo b1 b2 = Char.ofNat (b1.toNat % 32 * 64 + b2.toNat % 64) := by
  have e1 : b1.toNat &&& 0x1F = b1.toNat % 32 := Nat.and_two_pow_sub_one_eq_mod _ 5
  have e2 : b2.toNat &&& 0x3F = b2.toNat % 64 := Nat.and_two_pow_sub_one_eq_mod _ 6
  rw [scalarTwo, e1, e2, shiftLeft_or (by omega)]
  rfl

theorem scalarThree_eq (b1 b2 b3 : Byte) :
    scalarThree b1 b2 b3 = Char.ofNat (b1.toNat % 16 * 4096 + b2.toNat % 64 * 64 + b3.toNat % 64) := by
  have e1 : b1.toNat &&& 0x0F = b1.toNat % 16 := Nat.and_two_pow_sub_one_eq_mod _ 4
  have e2 : ∀ b : Byte, b.toNat &&& 0x3F = b.toNat % 64 := fun _ => Nat.and_two_pow_sub_one_eq_mod _ 6
  rw [scalarThree, e1, e2, e2, Nat.or_assoc, shiftLeft_or (a := b2.toNat % 64) (by omega),
    shiftLeft_or (by omega)]
  exact congrArg Char.ofNat (by omega)

theorem scalarFour_eq (b1 b2 b3 b4 : Byte) :
    scalarFour b1 b2 b3 b4 =
      Char.ofNat (b1.toNat % 8 * 262144 + b2.toNat % 64 * 4096 + b3.toNat % 64 * 64 + b4.toNat % 64) := by
  have e1 : b1.toNat &&& 0x07 = b1.toNat % 8 := Nat.and_two_pow_sub_one_eq_mod _ 3
  have e2 : ∀ b : Byte, b.toNat &&& 0x3F = b.toNat % 64 := fun _ => Nat.and_two_pow_sub_one_eq_mod _ 6
  rw [scalarFour, e1, e2, e2, e2, Nat.or_assoc, Nat.or_assoc, shiftLeft_or (a := b3.toNat % 64) (by omega),
    shiftLeft_or (a := b2.toNat % 64) (by omega), shiftLeft_or (by omega)]
  exact congrArg Char.ofNat (by omega)

end Sys2Proof.Machine
end

