-- ==== Sys2Proof/Laws/Records.lean ====
section
/-! SUPPORT. What a record can do, said once: the inversion of the shared record operations (43_tlv_records.md R159,
R168), and from it the effect of any record form. -/

namespace Sys2Proof.Machine

/-! ### Notices -/

theorem mem_insertId {x y : Byte} {l : List Byte} : y ∈ insertId x l ↔ y = x ∨ y ∈ l := by
  induction l with
  | nil => simp [insertId]
  | cons z l ih =>
    simp only [insertId]
    split
    · simp
    · split
      · rename_i h
        simp [h]
      · simp only [List.mem_cons, ih]
        tauto

/-- An insertion keeps `NOTICES` strictly rising, so without repeats. -/
theorem insertId_rising {x : Byte} {l : List Byte} (h : l.Pairwise (· < ·)) : (insertId x l).Pairwise (· < ·) := by
  induction l with
  | nil => simp [insertId]
  | cons z l ih =>
    obtain ⟨hz, hl⟩ := List.pairwise_cons.mp h
    simp only [insertId]
    split
    · rename_i hlt
      refine List.pairwise_cons.mpr ⟨fun y hy => ?_, h⟩
      rcases List.mem_cons.mp hy with rfl | hy
      · exact hlt
      · exact BitVec.lt_trans hlt (hz y hy)
    · split
      · exact h
      · rename_i h1 h2
        refine List.pairwise_cons.mpr ⟨fun y hy => ?_, ih hl⟩
        rcases mem_insertId.mp hy with rfl | hy
        · simp only [BitVec.lt_def] at h1 ⊢
          have : y.toNat ≠ z.toNat := fun e => h2 (BitVec.eq_of_toNat_eq e)
          omega
        · exact hz y hy

/-! ### One change of the outputs -/

/-- The four outcomes of a complete record for the outputs (43 R168), at an offset and under an id. -/
inductive OutputStep (offset : Nat) (mid : Byte) (o : Outputs) : Outputs → Prop
  | none : OutputStep offset mid o o
  | value (v : DecodedValue) (n : Nat) (hn : n ≤ 1) :
      OutputStep offset mid o { o with results := o.results ++ [(mid, v)], knownCount := o.knownCount + n }
  | notice : OutputStep offset mid o { o with notices := insertId mid o.notices }
  | error (kind : ErrorKind) : OutputStep offset mid o { o with errors := o.errors ++ [⟨offset, mid, kind⟩] }

theorem State.appendKnown_step (s : State) (v : DecodedValue) :
    OutputStep s.offset s.work.mid s.out (s.appendKnown v).out := .value v 1 le_rfl

theorem State.appendResult_step (s : State) (v : DecodedValue) :
    OutputStep s.offset s.work.mid s.out (s.appendResult v).out := .value v 0 (by omega)

theorem State.deliverNumber_step (s : State) (x : Rounded) :
    OutputStep s.offset s.work.mid s.out (s.deliverNumber x).out := by
  cases x with
  | datum d => cases d <;> exact .value _ 1 le_rfl
  | overflow neg =>
    simp only [State.deliverNumber]
    split
    · exact .value _ 1 le_rfl
    · exact .value _ 1 le_rfl
    · exact .none

theorem State.deliver_step (s : State) (d : Decoded) :
    OutputStep s.offset s.work.mid s.out (s.deliver d).out := by
  cases d with
  | number x => exact s.deliverNumber_step x
  | text t =>
    simp only [State.deliver, State.deliverText]
    split
    · exact .none
    · exact s.appendKnown_step _
  | macAddress m =>
    simp only [State.deliver, State.deliverMac]
    split
    · exact s.appendKnown_step _
    · exact s.appendResult_step _
  | error kind => exact .error kind

theorem registryPath_step (dec : Entry → Decoded) (s : State) :
    OutputStep s.offset s.work.mid s.out (registryPath dec s).out := by
  simp only [registryPath]
  split
  · exact .notice
  · exact s.deliver_step _

theorem registryPath_none {dec : Entry → Decoded} {s : State} (h : lookup s.cfg.registry s.work.mid = none) :
    registryPath dec s = s.insertNotice := by simp [registryPath, h]

theorem registryPath_some {dec : Entry → Decoded} {s : State} {e : Entry}
    (h : lookup s.cfg.registry s.work.mid = some e) : registryPath dec s = s.deliver (dec e) := by
  simp [registryPath, h]

/-! ### Around the arm -/

section runArm

variable (ctrl mid : Byte) (raw : Bytes) (arm : State → State) (s : State)

@[simp] theorem runArm_cfg : (runArm ctrl mid raw arm s).cfg = s.cfg := rfl
@[simp] theorem runArm_inp : (runArm ctrl mid raw arm s).inp = s.inp := rfl
@[simp] theorem runArm_phase : (runArm ctrl mid raw arm s).phase = s.phase := rfl
@[simp] theorem runArm_offset : (runArm ctrl mid raw arm s).offset = s.offset := rfl
@[simp] theorem runArm_work : (runArm ctrl mid raw arm s).work = ((s.latch ctrl mid).setRaw raw).work := rfl
@[simp] theorem runArm_pbuf : (runArm ctrl mid raw arm s).pbuf = s.pbuf := rfl
@[simp] theorem runArm_plen : (runArm ctrl mid raw arm s).plen = s.plen := rfl
@[simp] theorem runArm_ctx : (runArm ctrl mid raw arm s).ctx = s.ctx := rfl
@[simp] theorem runArm_out :
    (runArm ctrl mid raw arm s).out = (arm ((s.latch ctrl mid).setRaw raw)).out := rfl
@[simp] theorem runArm_draws :
    (runArm ctrl mid raw arm s).draws = (arm ((s.latch ctrl mid).setRaw raw)).draws := rfl

end runArm

/-- A payload form answers a next state exactly for a payload that a control byte can declare. -/
theorem payloadRecord_next {dfmt : BitVec 3} {mid : Byte} {raw : Bytes} {arm : State → State} {s t : State} :
    payloadRecord dfmt mid raw arm s = .next t ↔
      payloadLegal raw = true ∧ (runArm (ctrlByte dfmt (BitVec.ofNat 5 raw.length)) mid raw arm s).advance = t := by
  simp only [payloadRecord]
  split <;> simp_all

/-- With a legal payload a payload form answers the state of its arm, moved on. -/
theorem payloadRecord_legal {dfmt : BitVec 3} {mid : Byte} {raw : Bytes} {arm : State → State} {s : State}
    (h : payloadLegal raw = true) :
    payloadRecord dfmt mid raw arm s =
      .next (runArm (ctrlByte dfmt (BitVec.ofNat 5 raw.length)) mid raw arm s).advance := by
  simp [payloadRecord, h]

theorem payloadRecord_no_fault {dfmt : BitVec 3} {mid : Byte} {raw : Bytes} {arm : State → State} {s : State}
    {f : Fault} : payloadRecord dfmt mid raw arm s ≠ .fault f := by
  simp only [payloadRecord]
  split <;> simp

/-! ### The integer records -/

/-- The integer decoders are not defined on an empty payload (41 R118). -/
@[simp] theorem decodeUnsigned_nil : decodeUnsigned [] = none := rfl

@[simp] theorem decodeSigned_nil : decodeSigned [] = none := rfl

/-- `UINT` on a nonempty payload is a payload form whose arm scales the little-endian value (41 R111). -/
theorem execUint_eq {mid : Byte} {raw : Bytes} {s : State} (h : 1 ≤ raw.length) :
    execUint mid raw s = payloadRecord 0 mid raw
      (registryPath (fun e => .number (scale (intToF64 (leNat raw)) e.factor e.decimals))) s := by
  simp only [execUint, decodeUnsigned, unsignedOperand_of_length h, Option.map_some, integerRecord]

/-- `SINT` on a nonempty payload is a payload form whose arm scales the signed operand (41 R112). -/
theorem execSint_eq {mid : Byte} {raw : Bytes} {s : State} {i : Int} (h : signedOperand raw = some i) :
    execSint mid raw s =
      payloadRecord 1 mid raw (registryPath (fun e => .number (scale (intToF64 i) e.factor e.decimals))) s := by
  simp only [execSint, decodeSigned, h, Option.map_some, integerRecord]

/-- An integer record answers a next state exactly where its decoder is defined and the payload form answers one. -/
theorem integerRecord_next {dfmt : BitVec 3} {mid : Byte} {raw : Bytes} {dec : Option (Entry → Decoded)} {s t : State} :
    integerRecord dfmt mid raw dec s = .next t ↔
      ∃ d, dec = some d ∧ payloadRecord dfmt mid raw (registryPath d) s = .next t := by
  cases dec <;> simp [integerRecord]

theorem integerRecord_no_fault {dfmt : BitVec 3} {mid : Byte} {raw : Bytes} {dec : Option (Entry → Decoded)}
    {s : State} {f : Fault} : integerRecord dfmt mid raw dec s ≠ .fault f := by
  cases dec with
  | none => simp [integerRecord]
  | some d => exact payloadRecord_no_fault

/-! ### The control byte -/

@[simp] theorem ctrlDlen_ctrlByte (f : BitVec 3) (n : BitVec 5) : ctrlDlen (ctrlByte f n) = n := by
  revert f n; decide

@[simp] theorem ctrlDfmt_ctrlByte (f : BitVec 3) (n : BitVec 5) : ctrlDfmt (ctrlByte f n) = f := by
  revert f n; decide

theorem ctrlByte_fields (c : Byte) : ctrlByte (ctrlDfmt c) (ctrlDlen c) = c := by
  revert c; decide

/-- `DLEN = CTRL mod 32` (30 R80). -/
theorem ctrlDlen_toNat (c : Byte) : (ctrlDlen c).toNat = c.toNat % 32 := by revert c; decide

/-- `DFMT = CTRL div 32` (30 R80). -/
theorem ctrlDfmt_toNat (c : Byte) : (ctrlDfmt c).toNat = c.toNat / 32 := by revert c; decide

theorem payloadLegal_iff {raw : Bytes} : payloadLegal raw = true ↔ 1 ≤ raw.length ∧ raw.length ≤ 31 := by
  rw [payloadLegal, Bool.and_eq_true, decide_eq_true_iff, decide_eq_true_iff]
  rfl

theorem dlen_of_legal {raw : Bytes} (h : payloadLegal raw = true) : (BitVec.ofNat 5 raw.length).toNat = raw.length := by
  have := payloadLegal_iff.mp h
  simp only [BitVec.toNat_ofNat]
  omega

/-! ### Any record -/

/-- What holds after any record that answers a next state: nothing but the working registers, the cursor, the outputs
and the draw counter has moved, the cursor by the record's size, the outputs by one of the four outcomes. -/
structure RecordEffect (s t : State) : Prop where
  cfg : t.cfg = s.cfg
  inp : t.inp = s.inp
  phase : t.phase = s.phase
  pbuf : t.pbuf = s.pbuf
  plen : t.plen = s.plen
  ctx : t.ctx = s.ctx
  offset : t.offset = t.work.next
  next : t.work.next = s.offset + 2 + t.work.dlen.toNat
  out : OutputStep s.offset t.work.mid s.out t.out

theorem payloadRecord_effect {dfmt : BitVec 3} {mid : Byte} {raw : Bytes} {arm : State → State} {s t : State}
    (harm : ∀ u : State, OutputStep u.offset u.work.mid u.out (arm u).out)
    (h : payloadRecord dfmt mid raw arm s = .next t) : RecordEffect s t := by
  obtain ⟨-, rfl⟩ := payloadRecord_next.mp h
  exact ⟨rfl, rfl, rfl, rfl, rfl, rfl, rfl, rfl, harm ((s.latch _ mid).setRaw raw)⟩

theorem integerRecord_effect {dfmt : BitVec 3} {mid : Byte} {raw : Bytes} {dec : Option (Entry → Decoded)} {s t : State}
    (h : integerRecord dfmt mid raw dec s = .next t) : RecordEffect s t := by
  obtain ⟨d, -, h⟩ := integerRecord_next.mp h
  exact payloadRecord_effect (registryPath_step d) h

/-- Every record form has this effect. -/
theorem exec_record_effect {i : Instr} {s t : State} (hi : i.isRecord = true) (h : exec i s = .next t) :
    RecordEffect s t := by
  cases i with
  | empty dfmt mid =>
    obtain rfl : (s.latch (ctrlByte dfmt 0) mid).advance = t := by simpa [exec, execEmpty] using h
    exact ⟨rfl, rfl, rfl, rfl, rfl, rfl, rfl, rfl, .none⟩
  | uint mid raw => exact integerRecord_effect h
  | sint mid raw => exact integerRecord_effect h
  | float mid raw => exact payloadRecord_effect (registryPath_step _) h
  | utf8 mid raw => exact payloadRecord_effect (registryPath_step _) h
  | macovr mid raw => exact payloadRecord_effect (fun u => u.deliver_step _) h
  | bad5 mid raw => exact payloadRecord_effect (fun _ => .error _) h
  | bad6 mid raw => exact payloadRecord_effect (fun _ => .error _) h
  | bad7 mid raw => exact payloadRecord_effect (fun _ => .error _) h
  | decodePlain => simp [Instr.isRecord] at hi
  | decodeEnc => simp [Instr.isRecord] at hi
  | notApplicable svcId => simp [Instr.isRecord] at hi

end Sys2Proof.Machine
end

