-- ==== Sys2Proof/Laws/Scan.lean ====
section
/-! SUPPORT. What a step can do, said once for each phase: the fetch of the scan loop never leaves the buffer and ends in
exactly one of its three ways (43_tlv_records.md R150 to R153). -/

namespace Sys2Proof.Machine

/-- Every control byte has a row (30 R102). -/
theorem recordRow_total (c : Byte) : ∃ row, recordRow c = some row := by
  have : ∀ c : Byte, (recordRow c).isSome = true := by decide
  exact Option.isSome_iff_exists.mp (this c)

/-- Clean end (43 R152). -/
theorem fetchRecord_clean {s : State} (h : s.plen - s.offset < 2) :
    s.fetchRecord = .answer (.next s.finishScan) := by simp [State.fetchRecord, cleanEndTest, h]

/-- Truncation (43 R153). -/
theorem fetchRecord_truncated {s : State} (h : 2 ≤ s.plen - s.offset)
    (ht : s.plen < s.offset + 2 + (ctrlDlen (s.pbuf.read s.offset)).toNat) :
    s.fetchRecord = .answer (.next (s.stopTruncated (s.pbuf.read s.offset) (s.pbuf.read (s.offset + 1)))) := by
  have h1 : s.memByte s.offset = some (s.pbuf.read s.offset) := State.memByte_eq_some.mpr ⟨by omega, rfl⟩
  have h2 : s.memByte (s.offset + 1) = some (s.pbuf.read (s.offset + 1)) :=
    State.memByte_eq_some.mpr ⟨by omega, rfl⟩
  have h3 : ¬ s.plen - s.offset < 2 := by omega
  simp [State.fetchRecord, cleanEndTest, truncationTest, h1, h2, h3, ht]

/-- A complete record (43 R155). -/
theorem fetchRecord_complete {s : State} {row : RecordRow} (h : 2 ≤ s.plen - s.offset)
    (hn : s.offset + 2 + (ctrlDlen (s.pbuf.read s.offset)).toNat ≤ s.plen)
    (hr : recordRow (s.pbuf.read s.offset) = some row) :
    s.fetchRecord =
      .run (rowInstr row (s.pbuf.read s.offset) (s.pbuf.read (s.offset + 1))
        (s.pbuf.span (s.offset + 2) (ctrlDlen (s.pbuf.read s.offset)).toNat)) := by
  have h1 : s.memByte s.offset = some (s.pbuf.read s.offset) := State.memByte_eq_some.mpr ⟨by omega, rfl⟩
  have h2 : s.memByte (s.offset + 1) = some (s.pbuf.read (s.offset + 1)) :=
    State.memByte_eq_some.mpr ⟨by omega, rfl⟩
  have h3 : ¬ s.plen - s.offset < 2 := by omega
  have h4 : ¬ s.plen < s.offset + 2 + (ctrlDlen (s.pbuf.read s.offset)).toNat := by omega
  have h5 : s.memRead (s.offset + 2) (ctrlDlen (s.pbuf.read s.offset)).toNat =
      some (s.pbuf.span (s.offset + 2) (ctrlDlen (s.pbuf.read s.offset)).toNat) :=
    State.memRead_eq_some.mpr ⟨by omega, rfl⟩
  simp [State.fetchRecord, cleanEndTest, truncationTest, h1, h2, h3, h4, h5, hr]

/-- The three ways of a pass of the loop. -/
theorem fetchRecord_cases (s : State) :
    (s.plen - s.offset < 2 ∧ s.fetchRecord = .answer (.next s.finishScan)) ∨
    (2 ≤ s.plen - s.offset ∧ s.plen < s.offset + 2 + (ctrlDlen (s.pbuf.read s.offset)).toNat ∧
      s.fetchRecord = .answer (.next (s.stopTruncated (s.pbuf.read s.offset) (s.pbuf.read (s.offset + 1))))) ∨
    (2 ≤ s.plen - s.offset ∧ s.offset + 2 + (ctrlDlen (s.pbuf.read s.offset)).toNat ≤ s.plen ∧
      ∃ row, recordRow (s.pbuf.read s.offset) = some row ∧
        s.fetchRecord =
          .run (rowInstr row (s.pbuf.read s.offset) (s.pbuf.read (s.offset + 1))
            (s.pbuf.span (s.offset + 2) (ctrlDlen (s.pbuf.read s.offset)).toNat))) := by
  by_cases h : s.plen - s.offset < 2
  · exact .inl ⟨h, fetchRecord_clean h⟩
  by_cases ht : s.plen < s.offset + 2 + (ctrlDlen (s.pbuf.read s.offset)).toNat
  · exact .inr (.inl ⟨by omega, ht, fetchRecord_truncated (by omega) ht⟩)
  · obtain ⟨row, hr⟩ := recordRow_total (s.pbuf.read s.offset)
    exact .inr (.inr ⟨by omega, by omega, row, hr, fetchRecord_complete (by omega) (by omega) hr⟩)

/-! ### The instruction of a row -/

theorem rowInstr_isRecord (row : RecordRow) (ctrl mid : Byte) (raw : Bytes) :
    (rowInstr row ctrl mid raw).isRecord = true := by cases row <;> rfl

/-- A row other than `EMPTY` declares a payload (30 R86). -/
theorem recordRow_payload {c : Byte} {row : RecordRow} (h : recordRow c = some row) :
    row = .empty ↔ (ctrlDlen c).toNat = 0 := by
  have : ∀ c : Byte, ∀ r ∈ recordRow c, (r = .empty ↔ (ctrlDlen c).toNat = 0) := by decide
  exact this c row h

/-- The instruction of a fetched row is well formed when its payload has the declared length. -/
theorem rowInstr_wf {c mid : Byte} {raw : Bytes} {row : RecordRow} (h : recordRow c = some row)
    (hl : raw.length = (ctrlDlen c).toNat) : (rowInstr row c mid raw).wf = true := by
  have hb : (ctrlDlen c).toNat < 32 := (ctrlDlen c).isLt
  by_cases he : row = .empty
  · subst he
    rfl
  · have h0 : (ctrlDlen c).toNat ≠ 0 := fun e => he ((recordRow_payload h).mpr e)
    have hp : payloadLegal raw = true := payloadLegal_iff.mpr ⟨by omega, by omega⟩
    cases row <;> first | exact absurd rfl he | exact hp

/-! ### A well-formed record runs -/

/-- A well-formed record answers a next state in every state. -/
theorem exec_record_completes {i : Instr} (hw : i.wf = true) (hi : i.isRecord = true) (s : State) :
    ∃ t, exec i s = .next t := by
  cases i with
  | empty dfmt mid => exact ⟨_, rfl⟩
  | uint mid raw => exact ⟨_, (execUint_eq (payloadLegal_iff.mp hw).1).trans (payloadRecord_legal hw)⟩
  | sint mid raw =>
    exact ⟨_, (execSint_eq (signedOperand_of_length (payloadLegal_iff.mp hw).1)).trans (payloadRecord_legal hw)⟩
  | float mid raw => exact ⟨_, payloadRecord_legal hw⟩
  | utf8 mid raw => exact ⟨_, payloadRecord_legal hw⟩
  | macovr mid raw => exact ⟨_, payloadRecord_legal hw⟩
  | bad5 mid raw => exact ⟨_, payloadRecord_legal hw⟩
  | bad6 mid raw => exact ⟨_, payloadRecord_legal hw⟩
  | bad7 mid raw => exact ⟨_, payloadRecord_legal hw⟩
  | decodePlain => simp [Instr.isRecord] at hi
  | decodeEnc => simp [Instr.isRecord] at hi
  | notApplicable svcId => simp [Instr.isRecord] at hi

/-! ### One step by phase -/

theorem step_idle {s : State} (h : s.phase = .idle) : step s = exec (decodeService s.inp.svcId) s := by
  simp [step, State.nextAction, h]

theorem step_opening {s : State} (h : s.phase = .opening) : step s = openFrame s := by
  simp [step, State.nextAction, h]

theorem step_done {s : State} (h : s.phase = .done) : step s = .next s := by simp [step, State.nextAction, h]

theorem step_scan_run {s : State} {i : Instr} (h : s.phase = .scan) (hf : s.fetchRecord = .run i) :
    step s = exec i s := by simp [step, State.nextAction, h, hf]

theorem step_scan_answer {s : State} {o : Host.Outcome State Fault Refusal} (h : s.phase = .scan)
    (hf : s.fetchRecord = .answer o) : step s = o := by simp [step, State.nextAction, h, hf]

end Sys2Proof.Machine
end

