-- ==== Sys2Proof/Laws/PerInstr.lean ====
section
/-! SUPPORT. Facts about every instruction as syntax, one lemma a constructor: the length of its code (30_encoding.md R82)
and the control byte that selects its row (R86). -/

namespace Sys2Proof.Laws.CodeLength

/-- A well-formed record occupies 2 to 33 bytes, as its control byte declares; a frame-level operation none (R82). -/
def Statement (i : Instr) : Prop :=
  i.wf = true →
    if i.isRecord = true then
      2 ≤ (recordBytes i).length ∧ (recordBytes i).length ≤ 33 ∧
        (recordBytes i).length = 2 + (ctrlDlen ((recordBytes i).getD 0 0)).toNat
    else recordBytes i = []

theorem payload (f : BitVec 3) (mid : Byte) (raw : Bytes) (h : payloadLegal raw = true) :
    2 ≤ (ctrlByte f (BitVec.ofNat 5 raw.length) :: mid :: raw).length ∧
      (ctrlByte f (BitVec.ofNat 5 raw.length) :: mid :: raw).length ≤ 33 ∧
      (ctrlByte f (BitVec.ofNat 5 raw.length) :: mid :: raw).length =
        2 + (ctrlDlen ((ctrlByte f (BitVec.ofNat 5 raw.length) :: mid :: raw).getD 0 0)).toNat := by
  have hl := Machine.payloadLegal_iff.mp h
  have hd := Machine.dlen_of_legal h
  simp only [List.length_cons, List.getD_cons_zero, Machine.ctrlDlen_ctrlByte, hd]
  omega

theorem empty (dfmt : BitVec 3) (mid : Byte) : Statement (.empty dfmt mid) := by
  intro _
  simp [Instr.isRecord, recordBytes, encode]

theorem uint (mid : Byte) (raw : Bytes) : Statement (.uint mid raw) := fun h => payload 0 mid raw h
theorem sint (mid : Byte) (raw : Bytes) : Statement (.sint mid raw) := fun h => payload 1 mid raw h
theorem float (mid : Byte) (raw : Bytes) : Statement (.float mid raw) := fun h => payload 2 mid raw h
theorem utf8 (mid : Byte) (raw : Bytes) : Statement (.utf8 mid raw) := fun h => payload 3 mid raw h
theorem macovr (mid : Byte) (raw : Bytes) : Statement (.macovr mid raw) := fun h => payload 4 mid raw h
theorem bad5 (mid : Byte) (raw : Bytes) : Statement (.bad5 mid raw) := fun h => payload 5 mid raw h
theorem bad6 (mid : Byte) (raw : Bytes) : Statement (.bad6 mid raw) := fun h => payload 6 mid raw h
theorem bad7 (mid : Byte) (raw : Bytes) : Statement (.bad7 mid raw) := fun h => payload 7 mid raw h
theorem decodePlain : Statement .decodePlain := fun _ => rfl
theorem decodeEnc : Statement .decodeEnc := fun _ => rfl
theorem notApplicable (svcId : BitVec 16) : Statement (.notApplicable svcId) := fun _ => rfl

end Sys2Proof.Laws.CodeLength
end

