-- ==== Sys2Proof/Laws/Registry.lean ====
section
/-! SUPPORT. The test registry of 42_registry.md R145: it is well formed (R143) and holds its six ids and no other. -/

namespace Sys2Proof.Machine

theorem lookup_testRegistry_isSome (id : Byte) :
    (lookup testRegistry id).isSome = true ↔ id ∈ ([0x01, 0x02, 0x03, 0x0A, 0x30, 0x31] : List Byte) := by
  revert id; decide

/-- All other ids are absent (R145). -/
theorem testRegistry_absent {id : Byte} (h : id ∉ ([0x01, 0x02, 0x03, 0x0A, 0x30, 0x31] : List Byte)) :
    lookup testRegistry id = none :=
  Option.not_isSome_iff_eq_none.mp fun hs => h ((lookup_testRegistry_isSome id).mp hs)

/-- Each `decimals` is the one of the decimal factor that R145 writes: 1.0, 0.01, 0.01, 0.001, 0.1, 1.0. -/
theorem testRegistry_wellFormed : registryWellFormed testRegistry := by
  refine ⟨by decide, ?_⟩
  simp only [testRegistry, List.forall_mem_cons]
  refine ⟨⟨⟨2 ^ 52, -52, ?_, ?_⟩, 1, 0, ?_⟩, ⟨⟨0x147AE147AE147B, -59, ?_, ?_⟩, 1, 2, ?_⟩,
    ⟨⟨0x147AE147AE147B, -59, ?_, ?_⟩, 1, 2, ?_⟩, ⟨⟨0x10624DD2F1A9FC, -62, ?_, ?_⟩, 1, 3, ?_⟩,
    ⟨⟨0x1999999999999A, -56, ?_, ?_⟩, 1, 1, ?_⟩, ⟨⟨2 ^ 52, -52, ?_, ?_⟩, 1, 0, ?_⟩, by simp⟩ <;> decide +kernel

end Sys2Proof.Machine
end

