-- ==== Sys2Proof/Laws/Run.lean ====
section
/-! SUPPORT. Runs of several steps, one step at a time. -/

namespace Sys2Proof.Machine

@[simp] theorem runSteps_zero (s : State) : runSteps 0 s = .next s := rfl

/-- A run goes on from the state its first step gives. -/
theorem runSteps_succ {s t : State} (k : Nat) (h : step s = .next t) : runSteps (k + 1) s = runSteps k t := by
  have h' : core.step s = .next t := h
  simp only [runSteps, Host.Core.run]
  rw [h']

/-- A run depends on its first state only through the first step. -/
theorem runSteps_succ_congr {s t : State} (k : Nat) (h : step s = step t) :
    runSteps (k + 1) s = runSteps (k + 1) t := by
  have h' : core.step s = core.step t := h
  simp only [runSteps, Host.Core.run]
  rw [h']

/-- Runs compose. -/
theorem runSteps_add {s t : State} (k j : Nat) (h : runSteps k s = .next t) : runSteps (k + j) s = runSteps j t := by
  induction k generalizing s with
  | zero =>
    rw [runSteps_zero] at h
    injection h with h
    rw [h, Nat.zero_add]
  | succ k ih =>
    cases hs : step s with
    | next u =>
      rw [runSteps_succ _ hs] at h
      rw [Nat.succ_add, runSteps_succ _ hs]
      exact ih h
    | fault f =>
      have h' : core.step s = .fault f := hs
      simp [runSteps, Host.Core.run, h'] at h
    | refused r =>
      have h' : core.step s = .refused r := hs
      simp [runSteps, Host.Core.run, h'] at h

/-- The execution of a list goes on from the state its first instruction gives. -/
theorem execList_cons {i : Instr} {is : List Instr} {s t : State} (h : exec i s = .next t) :
    execList (i :: is) s = execList is t := by simp [execList, h]

end Sys2Proof.Machine
end

