-- ==== Sys2Proof/Tests/Slice0.lean ====
section
/-! SUPPORT. Tests. The bytes and the expected results are those of 95_test_vectors.md or of the rules the comments name,
never the model's own answers. Then, for every statement with hypotheses, a witness: a concrete state and operands that
meet them together. -/

namespace Sys2Proof.Tests

open Sys2Proof.Machine

/-! ### Fixtures -/

/-- A block between calls, with the registry `TR`. -/
def idle : State := { State.reset with cfg := ⟨testRegistry, 64, false, false⟩ }

/-- A loaded call over a frame, without address and key. -/
def called (svcId : BitVec 16) (frame : Bytes) : State :=
  { idle with
    inp := { Inputs.reset with svcId := svcId, frame := Memory.ofBytes 0 frame, frameLen := frame.length } }

/-- A plain scan over a buffer, at its start. -/
def scanning (bytes : Bytes) : State :=
  { called 0x181C bytes with phase := .scan, pbuf := Memory.ofBytes 0 bytes, plen := bytes.length }

/-- The key of 95 section 5.2. -/
def key : Bytes :=
  [0x23, 0x1D, 0x39, 0xC1, 0xD7, 0xCC, 0x1A, 0xB1, 0xAE, 0xE2, 0x24, 0xCD, 0x09, 0x6D, 0xB9, 0x32]

/-- The address of 95 section 5.2. -/
def mac : MacAddr := ⟨0x54, 0x48, 0xE6, 0x8F, 0x80, 0xA5⟩

/-- A loaded call over an encrypted frame, with the address and the key of 95 section 5.2. -/
def encrypted (frame : Bytes) : State :=
  { idle with
    inp :=
      { svcId := 0x181E
        mac := mac
        macKnown := true
        key := key
        keyPresent := true
        frame := Memory.ofBytes 0 frame
        frameLen := frame.length } }

/-- The frame of V2 (95 section 5.4), the shortest legal one. -/
def frameV2 : Bytes :=
  [0xDA, 0xA4, 0x3B, 0xE4, 0xD1, 0xC1, 0xC9, 0x00, 0x11, 0x22, 0x33, 0xB2, 0xCB, 0x52, 0x25]

/-- The frame of V2 with the last byte of its tag changed. -/
def frameBad : Bytes :=
  [0xDA, 0xA4, 0x3B, 0xE4, 0xD1, 0xC1, 0xC9, 0x00, 0x11, 0x22, 0x33, 0xB2, 0xCB, 0x52, 0x24]

/-- A call at its end with status `Ok` and nothing decoded (95 T3). -/
def ended : State := { called 0x181C [] with phase := .done }

/-- A call at its end with status `NotApplicable` (95 O5). -/
def endedOther : State :=
  { called 0xFCD2 [] with phase := .done, out := { Outputs.reset with status := .notApplicable } }

/-- A call at its end with status `AuthenticationFailed` (46 R255). -/
def endedFailed : State :=
  { encrypted frameBad with
    phase := .done
    out :=
      { Outputs.reset with status := .authenticationFailed, decryptOk := some false, keyVerified := some false } }

/-- What a function says of the next state. -/
def after {α : Type} (f : State → α) : Host.Outcome State Fault Refusal → Option α
  | .next t => some (f t)
  | .fault _ => none
  | .refused _ => none

/-! ### Well-formedness -/

theorem test_wf_payload_empty : (Instr.uint 0x02 []).wf = false := by decide
theorem test_wf_payload_long : (Instr.sint 0x02 (List.replicate 32 0)).wf = false := by decide
theorem test_wf_payload_longest : (Instr.bad7 0x02 (List.replicate 31 0)).wf = true := by decide
theorem test_wf_every_payload_form :
    ∀ i ∈ [Instr.uint 1 [], .sint 1 [], .float 1 [], .utf8 1 [], .macovr 1 [], .bad5 1 [], .bad6 1 [], .bad7 1 []],
      i.wf = false := by decide
theorem test_wf_selected_identifier :
    (Instr.notApplicable 0x181C).wf = false ∧ (Instr.notApplicable 0x181E).wf = false := by decide
theorem test_wf_other_identifier : (Instr.notApplicable 0x1C18).wf = true := by decide

/-! ### Decoding: the words of 30_encoding.md R80, R86, bit by bit, DFMT then DLEN -/

theorem test_decode_empty : decodeRecord [0b000_00000, 0x02] = .ok (.empty 0 0x02, []) := by decide
theorem test_decode_empty_before_format : decodeRecord [0b101_00000, 0x02] = .ok (.empty 5 0x02, []) := by decide
theorem test_decode_uint : decodeRecord [0b000_00001, 0x01, 0x64] = .ok (.uint 0x01 [0x64], []) := by decide
theorem test_decode_sint : decodeRecord [0b001_00010, 0x02, 0x3E, 0xF4] = .ok (.sint 0x02 [0x3E, 0xF4], []) := by
  decide
theorem test_decode_float : decodeRecord [0b010_00010, 0x30, 0x40, 0x4E] = .ok (.float 0x30 [0x40, 0x4E], []) := by
  decide
theorem test_decode_utf8 : decodeRecord [0b011_00001, 0x31, 0x41, 0x00] = .ok (.utf8 0x31 [0x41], [0x00]) := by decide
theorem test_decode_macovr :
    decodeRecord [0b100_00110, 0x00, 1, 2, 3, 4, 5, 6] = .ok (.macovr 0x00 [1, 2, 3, 4, 5, 6], []) := by decide
theorem test_decode_bad5 : decodeRecord [0b101_00001, 0x02, 0x00] = .ok (.bad5 0x02 [0x00], []) := by decide
theorem test_decode_bad6 : decodeRecord [0b110_00010, 0x02, 0, 0] = .ok (.bad6 0x02 [0, 0], []) := by decide
theorem test_decode_bad7 : decodeRecord [0b111_00001, 0x02, 0x55] = .ok (.bad7 0x02 [0x55], []) := by decide
theorem test_decode_services :
    decodeService 0b0001100000011100 = .decodePlain ∧ decodeService 0b0001100000011110 = .decodeEnc ∧
      decodeService 0x1C18 = .notApplicable 0x1C18 := by decide
theorem test_decode_truncated : decodeRecord [0xFF, 0x02, 0x00] = .error (.truncated 0xFF 0x02) := by decide
theorem test_decode_short : decodeRecord [0x02] = .error .tooShort := by decide
theorem test_table_word_record : decodeTableWord 8 0x42 = some (.float 0x00 [0x00, 0x00]) := by decide
theorem test_table_word_service : decodeTableWord 16 0x181E = some .decodeEnc := by decide

/-! ### The record forms -/

/-- 95 T6. -/
theorem test_empty_moves_two :
    after (fun t => (t.offset, t.out)) (exec (.empty 7 0x02) (scanning [0xE0, 0x02])) =
      some (2, Outputs.reset) := by decide

/-- 95 S1, NU1. -/
theorem test_uint_scales :
    after (fun t => (t.out.results, t.offset)) (exec (.uint 0x02 [0xC4, 0x09]) (scanning [0x02, 0x02, 0xC4, 0x09])) =
      some ([(0x02, .number 0x4039000000000000)], 4) := by decide +kernel

/-- 95 T11. -/
theorem test_uint_unknown_id :
    after (fun t => (t.out.results, t.out.notices)) (exec (.uint 0x7E [0x55]) (scanning [0x01, 0x7E, 0x55])) =
      some ([], [0x7E]) := by decide

/-- 95 I7, T42. -/
theorem test_sint_negative :
    after (fun t => t.out.results) (exec (.sint 0x02 [0x3E, 0xF4]) (scanning [0x22, 0x02, 0x3E, 0xF4])) =
      some [(0x02, .number 0xC03E19999999999A)] := by decide +kernel

/-- 95 T14. -/
theorem test_float_half :
    after (fun t => t.out.results) (exec (.float 0x30 [0x40, 0x4E]) (scanning [0x42, 0x30, 0x40, 0x4E])) =
      some [(0x30, .number 0x4004000000000000)] := by decide +kernel

/-- 95 T43. -/
theorem test_float_width :
    after (fun t => t.out.errors) (exec (.float 0x30 [0, 0, 0]) (scanning [0x43, 0x30, 0, 0, 0])) =
      some [⟨0, 0x30, .unsupportedNumericWidth⟩] := by decide

/-- 95 T21. -/
theorem test_utf8_four_bytes :
    after (fun t => t.out.results) (exec (.utf8 0x31 [0xF0, 0x9F, 0x98, 0x80]) (scanning [])) =
      some [(0x31, .text [Char.ofNat 0x1F600])] := by decide +kernel

/-- 95 T22. -/
theorem test_utf8_overlong :
    after (fun t => t.out.errors) (exec (.utf8 0x31 [0xC0, 0x80]) (scanning [])) =
      some [⟨0, 0x31, .invalidUTF8⟩] := by decide +kernel

/-- 95 T28. -/
theorem test_macovr_reverses :
    after (fun t => (t.out.results, t.out.notices, t.out.knownCount))
        (exec (.macovr 0x7E [0xA5, 0x80, 0x8F, 0xE6, 0x48, 0x54]) (scanning [])) =
      some ([(0x7E, .macAddress mac)], [], 0) := by decide

/-- 95 T27. -/
theorem test_macovr_length :
    after (fun t => t.out.errors) (exec (.macovr 0x00 [0xA5, 0x80, 0x8F, 0xE6, 0x48]) (scanning [])) =
      some [⟨0, 0x00, .invalidMacLength⟩] := by decide

/-- 95 T8. -/
theorem test_bad5_reports :
    after (fun t => (t.out.errors, t.offset)) (exec (.bad5 0x02 [0x00]) (scanning [])) =
      some ([⟨0, 0x02, .malformedControlByte⟩], 3) := by decide

/-- 95 T9. -/
theorem test_bad6_reports :
    after (fun t => (t.out.errors, t.offset)) (exec (.bad6 0x02 [0x00, 0x00]) (scanning [])) =
      some ([⟨0, 0x02, .malformedControlByte⟩], 4) := by decide

/-- 43 R166, for an id that the registry does not hold. -/
theorem test_bad7_ignores_registry :
    after (fun t => (t.out.errors, t.out.notices)) (exec (.bad7 0x7E [0x00]) (scanning [])) =
      some ([⟨0, 0x7E, .malformedControlByte⟩], []) := by decide

/-- 95 T5: truncation. -/
theorem test_scan_truncated :
    after (fun t => (t.phase, t.out.truncated, t.offset)) (step (scanning [0x01, 0x01])) =
      some (.done, true, 0) := by decide

/-- 95 T4: one byte left is a clean end. -/
theorem test_scan_clean_end :
    after (fun t => (t.phase, t.out.truncated, t.offset)) (step (scanning [0x02])) =
      some (.done, false, 0) := by decide

/-! ### The frame-level operations -/

/-- 95 O1. -/
theorem test_decodePlain_fills :
    after (fun t => (t.phase, t.memRead 0 4, t.out.decryptOk)) (step (called 0x181C [0x02, 0x02, 0xC4, 0x09])) =
      some (.scan, some [0x02, 0x02, 0xC4, 0x09], none) := by decide

/-- 95 V2. -/
theorem test_decodeEnc_opens :
    after (fun t => (t.phase, t.memRead 0 7, t.out.keyVerified)) (step (encrypted frameV2)) =
      some (.scan, some [0x02, 0x02, 0xC4, 0x09, 0x01, 0x01, 0x64], some true) := by decide +kernel

/-- 44 R201: a changed tag. -/
theorem test_decodeEnc_bad_tag :
    after (fun t => (t.phase, t.plen, t.out)) (step (encrypted frameBad)) =
      some (.done, 0, endedFailed.out) := by decide +kernel

/-- 95 O5. -/
theorem test_notApplicable_ends :
    after (fun t => (t.phase, t.out)) (step (called 0xFCD2 [])) = some (.done, endedOther.out) := by decide

/-- 95 section 5.1: spot values of the S-box. -/
theorem test_sbox : sbox 0x00 = 0x63 ∧ sbox 0x01 = 0x7C ∧ sbox 0x53 = 0xED ∧ sbox 0xFF = 0x16 := by decide

/-- A word of the opcode table, placed right after reset, is the instruction that runs. -/
theorem test_fetch_word :
    after (fun t => (t.work.ctrl, t.work.dlen, t.offset)) (step (State.reset.withFetchWord 8 0xA1)) =
      some (0xA1, 1, 3) := by decide

/-! ### Witnesses for the hypotheses of the statements -/

theorem test_witness_CallDependsOnlyOnItsInputs :
    ∃ s t : State, s.phase = .idle ∧ t.phase = .idle ∧ s.inp = t.inp ∧ s.cfg = t.cfg ∧ s.draws = t.draws ∧
      s.offset ≠ t.offset :=
  ⟨called 0x181C [1], { called 0x181C [1] with offset := 5 }, rfl, rfl, rfl, rfl, rfl, by decide⟩

theorem test_witness_StepRunsTheDecodedRecord :
    (scanning [0x01, 0x01, 0x64, 0x00]).phase = .scan ∧
      (scanning [0x01, 0x01, 0x64, 0x00]).memRead 0 4 = some [0x01, 0x01, 0x64, 0x00] ∧
      decodeRecord [0x01, 0x01, 0x64, 0x00] = .ok (.uint 0x01 [0x64], [0x00]) := by decide

theorem test_witness_StepStartsTheSelectedOperation :
    ((called 0x181C []).phase = .idle ∧ (called 0x181C []).inp.svcId = 0x181C) ∧
    ((called 0x181E []).phase = .idle ∧ (called 0x181E []).inp.svcId = 0x181E) ∧
    ((called 0x181D []).phase = .idle ∧ (called 0x181D []).inp.svcId ≠ 0x181C ∧
      (called 0x181D []).inp.svcId ≠ 0x181E) := by decide

theorem test_witness_ScanStopsCleanly :
    ∀ s ∈ [scanning [], scanning [0x02]], s.phase = .scan ∧ s.plen - s.offset < 2 := by decide

/-- A record one byte too long, and one that ends exactly at `PLEN`. -/
theorem test_witness_ScanStopsAtTruncation :
    ((scanning [0x01, 0x01]).phase = .scan ∧ 2 ≤ (scanning [0x01, 0x01]).plen - (scanning [0x01, 0x01]).offset ∧
      (scanning [0x01, 0x01]).plen <
        (scanning [0x01, 0x01]).offset + 2 + ((scanning [0x01, 0x01]).pbuf.read 0).toNat % 32) ∧
    ((scanning [0x00, 0x01]).phase = .scan ∧ 2 ≤ (scanning [0x00, 0x01]).plen - (scanning [0x00, 0x01]).offset ∧
      (scanning [0x00, 0x01]).offset + 2 + ((scanning [0x00, 0x01]).pbuf.read 0).toNat % 32 ≤
        (scanning [0x00, 0x01]).plen) := by decide

theorem test_witness_OutputsAppearAtTheEndAndStay : (scanning []).phase ≠ .done ∧ ended.phase = .done := by decide

/-- The least frame that the CCM length field cannot hold. -/
theorem test_witness_StepRefusesOnlyOversizeFrames :
    step { encrypted [] with inp := { (encrypted []).inp with frameLen := 2 ^ 24 + 8 } } =
      .refused .ccmLengthField := by rfl

theorem test_witness_InputsAndConfigurationAreNeverWritten :
    (∃ t, exec (.uint 0x01 [0x64]) (scanning []) = .next t) ∧ ∃ t, step (scanning []) = .next t :=
  ⟨exec_record_completes (by decide) (by decide) _, _, rfl⟩

/-- The invariant in a running scan. -/
theorem test_witness_scan_inv : (scanning [0x01, 0x01, 0x64]).Inv where
  frameForm := by decide
  pbufForm := by decide
  cursorInside := by decide
  noticesRising := by decide
  entriesBounded := by decide
  knownBounded := by decide
  errorsBehind := by decide
  openingFresh := by decide
  scanRunning := by decide
  doneOk := by decide
  doneOther := by decide
  verdicts := ⟨by decide, by decide, by decide, by decide⟩

theorem test_witness_StepKeepsTheInvariant :
    (scanning [0x01, 0x01, 0x64]).Inv ∧ ∃ t, step (scanning [0x01, 0x01, 0x64]) = .next t :=
  ⟨test_witness_scan_inv, exec_record_completes (i := .uint 0x01 [0x64]) (by decide) (by decide) _⟩

/-- A call is loaded before the first one and after an ended one. -/
theorem test_witness_LoadingACallKeepsTheInvariant :
    (∃ t, idle.startCall (called 0x181C [0x02]).inp = some t) ∧
      ∃ t, ended.startCall (called 0x181C [0x02]).inp = some t :=
  ⟨Option.isSome_iff_exists.mp (by decide), Option.isSome_iff_exists.mp (by decide)⟩

theorem test_witness_StepKeepsThePlaintextAuthentic :
    (scanning [0x01, 0x01, 0x64]).Inv ∧ plaintextAuthentic (scanning [0x01, 0x01, 0x64]) ∧
      ∃ t, step (scanning [0x01, 0x01, 0x64]) = .next t :=
  ⟨test_witness_scan_inv, fun _ => .inl ⟨rfl, rfl, fun _ => rfl⟩, test_witness_StepKeepsTheInvariant.2⟩

theorem test_witness_ScanEndsWithinItsBound : (scanning [0x00, 0x01]).phase = .scan := by decide

theorem test_witness_EveryCallEnds :
    (encrypted frameV2).phase = .idle ∧
      ((encrypted frameV2).inp.svcId = 0x181E → (encrypted frameV2).inp.frameLen < 2 ^ 24 + 8) := by decide

theorem test_witness_RecordsRunInBufferOrder :
    (∀ i ∈ [Instr.empty 0 0x02, .uint 0x01 [0x64]], i.wf = true ∧ i.isRecord = true) ∧
      (scanning [0x00, 0x02, 0x01, 0x01, 0x64]).phase = .scan ∧
      (scanning [0x00, 0x02, 0x01, 0x01, 0x64]).memRead 0 5 =
        some (streamBytes [Instr.empty 0 0x02, .uint 0x01 [0x64]]) := by decide

/-- One complete record, then one whose payload is missing. -/
theorem test_witness_TruncatedStreamKeepsItsPrefix :
    (∀ i ∈ [Instr.empty 0 0x02], i.wf = true ∧ i.isRecord = true) ∧
      (scanning [0x00, 0x02, 0x01, 0x01]).phase = .scan ∧
      (scanning [0x00, 0x02, 0x01, 0x01]).memRead 0 2 = some (streamBytes [Instr.empty 0 0x02]) ∧
      ∃ u, execList [.empty 0 0x02] (scanning [0x00, 0x02, 0x01, 0x01]) = .next u ∧ 2 ≤ u.plen - u.offset ∧
        u.plen < u.offset + 2 + (u.pbuf.read u.offset).toNat % 32 :=
  ⟨by decide, by decide, by decide, _, rfl, by decide, by decide⟩

theorem test_witness_DecodeOfEncode :
    ∀ i ∈ [Instr.empty 7 0xFF, .macovr 0x00 (List.replicate 31 0xFF), .decodeEnc, .notApplicable 0], i.wf = true := by
  decide

theorem test_witness_RecordsDelimitThemselves :
    (Instr.float 0x30 [0x40, 0x4E]).wf = true ∧ (Instr.float 0x30 [0x40, 0x4E]).isRecord = true := by decide

theorem test_witness_DecodedBytesReencode :
    decodeRecord [0x01, 0x01, 0x64, 0x02] = .ok (.uint 0x01 [0x64], [0x02]) := by decide

theorem test_witness_DecoderRejectsByName : ([0x02, 0x02, 0xC4] : Bytes) = 0x02 :: 0x02 :: [0xC4] := rfl

theorem test_witness_SelectorComparesAllBits : (0x1C18 : BitVec 16) ≠ 0x181C ∧ (0x1C18 : BitVec 16) ≠ 0x181E := by decide

/-- Both ends of the payload range, an id in the registry and one that is not. -/
theorem test_witness_UintStoresTheScaledValue :
    (∀ raw ∈ [([0x64] : Bytes), List.replicate 31 0xFF], 1 ≤ raw.length ∧ raw.length ≤ 31) ∧
      lookup (scanning []).cfg.registry 0x02 = some ⟨0x02, .signedInt, 0x3F847AE147AE147B, 2⟩ ∧
      lookup (scanning []).cfg.registry 0x7E = none := by decide

theorem test_witness_SintStoresTheScaledValue :
    (∀ raw ∈ [([0x80] : Bytes), List.replicate 31 0xFF], 1 ≤ raw.length ∧ raw.length ≤ 31) ∧
      lookup (scanning []).cfg.registry 0x03 = some ⟨0x03, .unsignedInt, 0x3F847AE147AE147B, 2⟩ ∧
      lookup (scanning []).cfg.registry 0x04 = none := by decide

/-- The three widths, and the shortest, the longest and a middle width that are none of them. -/
theorem test_witness_FloatStoresOrReportsTheWidth :
    (∀ n ∈ [1, 2, 3, 4, 8, 31], 1 ≤ (List.replicate n (0 : Byte)).length ∧ (List.replicate n (0 : Byte)).length ≤ 31) ∧
      lookup (scanning []).cfg.registry 0x30 = some ⟨0x30, .float, 0x3FB999999999999A, 1⟩ ∧
      lookup (scanning []).cfg.registry 0x7E = none := by decide

/-- No scalar value is encoded with a first byte `FF`. -/
theorem utf8Char_ne_ff (c : Char) (rest : Bytes) : utf8Char c ++ rest ≠ [0xFF] := by
  have hv : c.toNat < 0xD800 ∨ (0xDFFF < c.toNat ∧ c.toNat < 0x110000) := c.valid
  intro h
  have key : ∀ (b : Nat) (r : Bytes), BitVec.ofNat 8 b :: r = [0xFF] → b < 255 → False := by
    intro b r hb hlt
    have h0 := congrArg (fun l : Bytes => (l.headD 0).toNat) hb
    simp at h0
    omega
  unfold utf8Char at h
  dsimp only at h
  split at h
  · exact key _ _ h (by omega)
  split at h
  · exact key _ _ h (by omega)
  split at h
  · exact key _ _ h (by omega)
  · exact key _ _ h (by omega)

/-- A text and its payload, with and without `STRING_DISCARD`; a payload that is the encoding of no text; an unknown
id. -/
theorem test_witness_Utf8StoresTextOrReportsIt :
    lookup (scanning []).cfg.registry 0x31 = some ⟨0x31, .utf8String, 0x3FF0000000000000, 0⟩ ∧
      utf8Encode [Char.ofNat 0x20AC] = [0xE2, 0x82, 0xAC] ∧ (∀ text, utf8Encode text ≠ [0xFF]) ∧
      lookup (scanning []).cfg.registry 0x7E = none := by
  refine ⟨by decide, by decide +kernel, fun text => ?_, by decide⟩
  cases text with
  | nil => decide
  | cons c cs => exact utf8Char_ne_ff c (utf8Encode cs)

theorem test_witness_MacovrStoresTheReversedAddress :
    mac.toBytes = ([0xA5, 0x80, 0x8F, 0xE6, 0x48, 0x54] : Bytes).reverse ∧
      (List.replicate 5 (0 : Byte)).length ≠ 6 ∧ (List.replicate 7 (0 : Byte)).length ≠ 6 ∧
      (List.replicate 31 (0 : Byte)).length ≤ 31 := by decide

theorem test_witness_BadFormatsReportMalformed :
    1 ≤ ([0x00] : Bytes).length ∧ (List.replicate 31 (0 : Byte)).length ≤ 31 := by decide

/-- Every record form runs. -/
theorem test_witness_RecordFrame :
    ∀ i ∈ [Instr.empty 0 1, .uint 1 [0], .sint 1 [0], .float 1 [0], .utf8 1 [0], .macovr 1 [0], .bad5 1 [0],
      .bad6 1 [0], .bad7 1 [0]], i.isRecord = true ∧ ∃ t, exec i (scanning []) = .next t := by
  intro i hi
  have h : i.wf = true ∧ i.isRecord = true := by
    revert i
    decide
  exact ⟨h.2, exec_record_completes h.1 h.2 _⟩

theorem test_witness_RecordHasOneOutcome :
    (Instr.uint 0x7E [0]).isRecord = true ∧ ∃ t, exec (.uint 0x7E [0]) (scanning []) = .next t :=
  ⟨by decide, exec_record_completes (by decide) (by decide) _⟩

theorem test_witness_WorkingRegistersHoldTheRecord :
    (Instr.empty 5 0x02).wf = true ∧ (Instr.empty 5 0x02).isRecord = true ∧
      ∃ t, exec (.empty 5 0x02) (scanning []) = .next t :=
  ⟨by decide, by decide, _, rfl⟩

theorem test_witness_CursorOnlyAdvances :
    (scanning [0x00, 0x01]).phase = .scan ∧ ∃ t, step (scanning [0x00, 0x01]) = .next t :=
  ⟨rfl, exec_record_completes (i := .empty 0 0x01) (by decide) (by decide) _⟩

theorem test_witness_RecordsCannotReadTheInputs :
    (Instr.utf8 0x31 [0x41]).isRecord = true ∧ ∃ t, exec (.utf8 0x31 [0x41]) (scanning []) = .next t :=
  ⟨by decide, exec_record_completes (by decide) (by decide) _⟩

theorem test_witness_RepresentationIsNeverRead :
    (Instr.sint 0x03 [0x41]).isRecord = true ∧ ∃ t, exec (.sint 0x03 [0x41]) (scanning []) = .next t :=
  ⟨by decide, exec_record_completes (by decide) (by decide) _⟩

theorem test_witness_MacovrIgnoresTheRegistry :
    ∃ t, exec (.macovr 0x7E [1, 2, 3, 4, 5, 6]) (scanning []) = .next t :=
  exec_record_completes (by decide) (by decide) _

theorem test_witness_SignedOperandIsTwosComplement : 1 ≤ ([0x80] : Bytes).length := by decide

/-- Both ends of the exact range. -/
theorem test_witness_IntegerConversionIsExact :
    ((2 : Int) ^ 53).natAbs ≤ 2 ^ 53 ∧ (-(2 : Int) ^ 53).natAbs ≤ 2 ^ 53 := by decide

/-- Three tenths, whose nearest binary64 has the encoding `3FD3333333333333` (95 F5). -/
theorem test_witness_RoundingIsToNearestEven :
    0 < 10 ∧ nearest false 3 10 = .fin false 0x13333333333333 (-54) := by decide +kernel

/-- The least value that rounds to an infinity, and the one below it. -/
theorem test_witness_RoundingOverflowsToInfinity :
    (2 ^ 54 - 1) * 2 ^ 970 * 1 ≤ (2 ^ 54 - 1) * 2 ^ 970 ∧
      (2 ^ 54 - 1) * 2 ^ 970 - 1 < (2 ^ 54 - 1) * 2 ^ 970 * 1 := by decide +kernel

/-- The registry with the one entry of 41 R133: factor 0.01, two decimals. -/
theorem test_witness_WellFormedRegistryKeepsInfinityAndZero :
    registryWellFormed [⟨0x02, .signedInt, 0x3F847AE147AE147B, 2⟩] ∧
      lookup [⟨0x02, .signedInt, 0x3F847AE147AE147B, 2⟩] 0x02 =
        some ⟨0x02, .signedInt, 0x3F847AE147AE147B, 2⟩ := by
  refine ⟨⟨by decide, fun e he => ?_⟩, by decide⟩
  obtain rfl := List.mem_singleton.mp he
  exact ⟨⟨0x147AE147AE147B, -59, by decide +kernel, by decide⟩,
    ⟨1, 2, by decide, by decide +kernel, by decide, by decide⟩⟩

/-- The least and the greatest finite binary64, and one read back from its encoding. -/
theorem test_witness_StoredNumbersReadBack :
    binary64Form 0 (-1074) ∧ binary64Form (2 ^ 53 - 1) 971 ∧
      datum64 (0x8000000000000000 : BitVec 64).toNat = .fin true 0 (-1074) := by
  refine ⟨?_, ?_, by decide +kernel⟩ <;> unfold binary64Form <;> decide

/-- The least subnormal data of both formats (95 F12, F19). -/
theorem test_witness_WideningIsExact :
    datum16 1 = .fin false 1 (-24) ∧ datum32 1 = .fin false 1 (-149) := by decide +kernel

theorem test_witness_TextRoundTrip : textOperand [0x41, 0x00, 0x42] = some ['A', Char.ofNat 0, 'B'] := by
  decide +kernel

/-- The ciphertext and the tag of V2 open to its plaintext (95 section 5.4). -/
theorem test_witness_OpenSucceedsExactlyOnTagMatch :
    aeadOpen key (makeNonce mac ⟨0x00, 0x11, 0x22, 0x33⟩) [0x11] [0xDA, 0xA4, 0x3B, 0xE4, 0xD1, 0xC1, 0xC9]
        ⟨0xB2, 0xCB, 0x52, 0x25⟩ =
      some [0x02, 0x02, 0xC4, 0x09, 0x01, 0x01, 0x64] := by decide +kernel

/-- One state for each fatal cause, the later causes not yet looked at. -/
theorem test_witness_DecodeEncFatalPriority :
    (called 0x181E []).inp.macKnown = false ∧
    (∃ s : State, s.inp.macKnown = true ∧ s.inp.keyPresent = false) ∧
    (∃ s : State, s.inp.macKnown = true ∧ s.inp.keyPresent = true ∧ s.inp.key.length ≠ 16) ∧
    ((encrypted (List.replicate 14 0)).inp.macKnown = true ∧ (encrypted (List.replicate 14 0)).inp.keyPresent = true ∧
      (encrypted (List.replicate 14 0)).inp.key.length = 16 ∧ (encrypted (List.replicate 14 0)).inp.frameLen < 15) :=
  ⟨by decide,
    ⟨{ encrypted [] with inp := { (encrypted []).inp with keyPresent := false } }, by decide⟩,
    ⟨{ encrypted [] with inp := { (encrypted []).inp with key := List.replicate 15 0 } }, by decide⟩, by decide⟩

/-- A frame that opens, one whose tag does not match, and the least one that the length field cannot hold. -/
theorem test_witness_DecodeEncOpensTheFrame :
    (∀ s ∈ [encrypted frameV2, encrypted frameBad], s.inp.macKnown = true ∧ s.inp.keyPresent = true ∧
      s.inp.key.length = 16 ∧ 15 ≤ s.inp.frameLen ∧ s.inp.frameLen - 8 < 2 ^ 24 ∧
      s.frameRead 0 (s.inp.frameLen - 8) = some [0xDA, 0xA4, 0x3B, 0xE4, 0xD1, 0xC1, 0xC9] ∧
      s.frameRead (s.inp.frameLen - 8) 4 = some [0x00, 0x11, 0x22, 0x33]) ∧
    (encrypted frameV2).frameRead 11 4 = some [0xB2, 0xCB, 0x52, 0x25] ∧
    (encrypted frameBad).frameRead 11 4 = some [0xB2, 0xCB, 0x52, 0x24] ∧
    aeadOpen key (makeNonce mac ⟨0x00, 0x11, 0x22, 0x33⟩) [0x11] [0xDA, 0xA4, 0x3B, 0xE4, 0xD1, 0xC1, 0xC9]
      ⟨0xB2, 0xCB, 0x52, 0x24⟩ = none ∧
    2 ^ 24 ≤ (2 ^ 24 + 8) - 8 := by decide +kernel

/-- The three kinds of ended calls: with an outcome, not applicable, failed. -/
theorem test_witness_CallResultFollowsTheStatusTable :
    (ended.Inv ∧ ended.phase = .done) ∧ (endedOther.Inv ∧ endedOther.phase = .done) ∧
      (endedFailed.Inv ∧ endedFailed.phase = .done) := by
  refine ⟨⟨?_, rfl⟩, ⟨?_, rfl⟩, ⟨?_, rfl⟩⟩ <;>
  exact
    { frameForm := by decide
      pbufForm := by decide
      cursorInside := by decide
      noticesRising := by decide
      entriesBounded := by decide
      knownBounded := by decide
      errorsBehind := by decide
      openingFresh := by decide
      scanRunning := by decide
      doneOk := by decide
      doneOther := by decide
      verdicts := ⟨by decide, by decide, by decide, by decide⟩ }

end Sys2Proof.Tests
end

section
/-! `LE` of a byte string as a positional sum (00_scope.md R14): its equations, its closed form and its range. -/

namespace Sys2Proof.Machine

@[simp] theorem leNat_nil : leNat [] = 0 := rfl

@[simp] theorem leNat_cons (b : Byte) (bs : Bytes) : leNat (b :: bs) = b.toNat + 256 * leNat bs := rfl

theorem leNat_eq_sum (b : Bytes) :
    leNat b = ∑ k ∈ Finset.range b.length, (b.getD k 0).toNat * 256 ^ k := by
  induction b with
  | nil => simp
  | cons b bs ih =>
    have shift : ∑ k ∈ Finset.range bs.length, (bs.getD k 0).toNat * 256 ^ (k + 1) = 256 * leNat bs := by
      rw [ih, Finset.mul_sum]
      exact Finset.sum_congr rfl fun k _ => by ring
    rw [List.length_cons, Finset.sum_range_succ']
    simp only [List.getD_cons_succ, List.getD_cons_zero, shift, leNat_cons]
    omega

theorem leNat_lt (b : Bytes) : leNat b < 256 ^ b.length := by
  induction b with
  | nil => simp
  | cons b bs ih =>
    have byte_lt : b.toNat < 256 := b.isLt
    rw [leNat_cons, List.length_cons, pow_succ]
    omega

/-- Settles O40: by the closed form and the range of `leNat`, each by induction on the bytes. -/
theorem littleEndianSum : Obligations.LittleEndianSum :=
  fun b => ⟨leNat_eq_sum b, leNat_lt b⟩

end Sys2Proof.Machine
end

section
/-! What the outcome of a record keeps of the outputs (43_tlv_records.md R168), and what the working registers hold
after it (10_state.md R21). -/

namespace Sys2Proof.Machine

/-! ### The outputs after one outcome -/

/-- The flags, verdicts and status that no record outcome touches (10 R48). -/
theorem OutputStep.flags {offset : Nat} {mid : Byte} {o o' : Outputs} (h : OutputStep offset mid o o') :
    o'.truncated = o.truncated ∧ o'.decryptOk = o.decryptOk ∧ o'.keyVerified = o.keyVerified ∧
      o'.success = o.success ∧ o'.status = o.status := by
  cases h <;> exact ⟨rfl, rfl, rfl, rfl, rfl⟩

/-- The output lists and the counter only grow. -/
theorem OutputStep.grows {offset : Nat} {mid : Byte} {o o' : Outputs} (h : OutputStep offset mid o o') :
    o.results <+: o'.results ∧ o.errors <+: o'.errors ∧ (∀ id ∈ o.notices, id ∈ o'.notices) ∧
      o.knownCount ≤ o'.knownCount := by
  cases h with
  | none => simp
  | value v n hn => simp
  | notice => exact ⟨⟨[], List.append_nil _⟩, ⟨[], List.append_nil _⟩, fun _ h => mem_insertId.mpr (.inr h), le_rfl⟩
  | error kind => simp

/-- A record adds at most one entry to `RESULTS` and `ERRORS` together. -/
theorem OutputStep.entries_le {offset : Nat} {mid : Byte} {o o' : Outputs} (h : OutputStep offset mid o o') :
    o'.results.length + o'.errors.length ≤ o.results.length + o.errors.length + 1 := by
  cases h with
  | none => omega
  | value v n hn =>
    simp only [List.length_append, List.length_singleton]
    omega
  | notice => exact Nat.le_succ _
  | error kind =>
    simp only [List.length_append, List.length_singleton]
    omega

/-- A value that is counted is also appended. -/
theorem OutputStep.known_le {offset : Nat} {mid : Byte} {o o' : Outputs} (h : OutputStep offset mid o o')
    (hk : o.knownCount ≤ o.results.length) : o'.knownCount ≤ o'.results.length := by
  cases h with
  | none => exact hk
  | value v n hn =>
    simp only [List.length_append, List.length_singleton]
    omega
  | notice => exact hk
  | error kind => exact hk

theorem OutputStep.notices_rising {offset : Nat} {mid : Byte} {o o' : Outputs} (h : OutputStep offset mid o o')
    (hr : o.notices.Pairwise (· < ·)) : o'.notices.Pairwise (· < ·) := by
  cases h with
  | none => exact hr
  | value v n hn => exact hr
  | notice => exact insertId_rising hr
  | error kind => exact hr

/-- A new error names the offset of its record (60 R281). -/
theorem OutputStep.error_mem {offset : Nat} {mid : Byte} {o o' : Outputs} (h : OutputStep offset mid o o')
    {e : ErrorEntry} (he : e ∈ o'.errors) : e ∈ o.errors ∨ e.offset = offset := by
  cases h with
  | none => exact .inl he
  | value v n hn => exact .inl he
  | notice => exact .inl he
  | error kind =>
    rcases List.mem_append.mp he with he | he
    · exact .inl he
    · exact .inr (by rw [List.mem_singleton.mp he])

/-- Settles O33: from the effect of a record, whose outcome leaves the flags and only lets the lists grow. -/
theorem recordFrame : Obligations.RecordFrame := by
  intro i s t hi h
  have e := exec_record_effect hi h
  refine ⟨⟨e.cfg, e.inp, e.phase, e.plen, e.ctx, fun a => ?_, fun a => ?_, e.out.flags⟩, e.out.grows⟩
  · rw [e.inp]
  · rw [e.pbuf]

/-! ### The working registers after a record -/

/-- The working registers hold the record with these bytes: its fields as cut, its length as declared (30 R80, R81). -/
structure Work.Holds (w : Work) (bytes : Bytes) : Prop where
  fields : bytes = w.ctrl :: w.mid :: (if w.dlen = 0 then [] else w.raw)
  dlen : w.dlen = ctrlDlen w.ctrl
  dfmt : w.dfmt = ctrlDfmt w.ctrl
  length : bytes.length = 2 + w.dlen.toNat

theorem payloadRecord_holds {dfmt : BitVec 3} {mid : Byte} {raw : Bytes} {arm : State → State} {s t : State}
    (h : payloadRecord dfmt mid raw arm s = .next t) :
    t.work.Holds (ctrlByte dfmt (BitVec.ofNat 5 raw.length) :: mid :: raw) := by
  obtain ⟨hl, rfl⟩ := payloadRecord_next.mp h
  have hd := dlen_of_legal hl
  have hpos : BitVec.ofNat 5 raw.length ≠ 0 := fun e => by
    have := (payloadLegal_iff.mp hl).1
    rw [e] at hd
    simp only [BitVec.ofNat_eq_ofNat, BitVec.toNat_ofNat] at hd
    omega
  refine ⟨?_, rfl, rfl, ?_⟩
  · simp only [State.advance_work, runArm_work, State.setRaw_work, State.latch_work, ctrlDlen_ctrlByte, if_neg hpos]
  · simp [hd]
    omega

theorem integerRecord_holds {dfmt : BitVec 3} {mid : Byte} {raw : Bytes} {dec : Option (Entry → Decoded)} {s t : State}
    (h : integerRecord dfmt mid raw dec s = .next t) :
    t.work.Holds (ctrlByte dfmt (BitVec.ofNat 5 raw.length) :: mid :: raw) := by
  obtain ⟨d, -, h⟩ := integerRecord_next.mp h
  exact payloadRecord_holds h

/-- After any record the working registers hold the bytes that encode it. -/
theorem exec_record_holds {i : Instr} {s t : State} (hi : i.isRecord = true) (h : exec i s = .next t) :
    t.work.Holds (recordBytes i) := by
  cases i with
  | empty dfmt mid =>
    obtain rfl : (s.latch (ctrlByte dfmt 0) mid).advance = t := by simpa [exec, execEmpty] using h
    exact ⟨by simp [recordBytes, encode], rfl, rfl, by simp [recordBytes, encode]⟩
  | uint mid raw => exact integerRecord_holds h
  | sint mid raw => exact integerRecord_holds h
  | float mid raw => exact payloadRecord_holds h
  | utf8 mid raw => exact payloadRecord_holds h
  | macovr mid raw => exact payloadRecord_holds h
  | bad5 mid raw => exact payloadRecord_holds h
  | bad6 mid raw => exact payloadRecord_holds h
  | bad7 mid raw => exact payloadRecord_holds h
  | decodePlain => simp [Instr.isRecord] at hi
  | decodeEnc => simp [Instr.isRecord] at hi
  | notApplicable svcId => simp [Instr.isRecord] at hi

/-- A record moves the cursor by the bytes that encode it. -/
theorem exec_record_offset {i : Instr} {s t : State} (hi : i.isRecord = true) (h : exec i s = .next t) :
    t.offset = s.offset + (recordBytes i).length := by
  have e := exec_record_effect hi h
  rw [e.offset, e.next, (exec_record_holds hi h).length]
  omega

/-- The cursor moves by 2 to 33 bytes (30 R82): `DLEN` has 5 bits. -/
theorem RecordEffect.offset_bounds {s t : State} (e : RecordEffect s t) :
    s.offset + 2 ≤ t.offset ∧ t.offset ≤ s.offset + 33 := by
  have hlt : t.work.dlen.toNat < 32 := t.work.dlen.isLt
  have hn := e.next
  have ho := e.offset
  omega

/-- Settles O35: from what the working registers hold after a record and the record's effect on the cursor. -/
theorem workingRegistersHoldTheRecord : Obligations.WorkingRegistersHoldTheRecord := by
  intro i s t _ hi h
  have e := exec_record_effect hi h
  have w := exec_record_holds hi h
  refine ⟨w.fields, ?_, ?_, ?_, e.offset, e.offset_bounds⟩
  · rw [w.dlen, ctrlDlen_toNat]
  · rw [w.dfmt, ctrlDfmt_toNat]
  · rw [← e.offset, exec_record_offset hi h]

end Sys2Proof.Machine
end

section
/-! What a step that answers a next state can do, said once for every phase (43_tlv_records.md R150, 44_decryptor.md
R190, 46_orchestrator.md R250), and what follows for the inputs and the cursor. -/

namespace Sys2Proof.Machine

/-! ### The open of a frame -/

/-- The EncryptionContext cut from the whole frame: `CT`, `COUNTER` and `MIC` from the end (44 R194). -/
abbrev State.sliceFrame (s : State) : State :=
  s.setContext (s.inp.frame.span 0 (s.inp.frameLen - 8)) (s.inp.frame.span (s.inp.frameLen - 8) 4)
    (s.inp.frame.span (s.inp.frameLen - 4) 4)

/-- The ways the Decryptor ends: a fatal kind before any slice is cut, a tag that does not verify (44 R201), or a
verified plaintext and the scan over it (44 R200). -/
inductive OpenResult (s : State) : State → Prop
  | fatal (kind : FatalKind) : OpenResult s (s.raiseFatal kind)
  | unverified : OpenResult s (s.sliceFrame.raiseFatal .authenticationFailed)
  | opened (pt : Bytes) (hlen : 15 ≤ s.inp.frameLen)
      (hopen : aeadOpen s.inp.key s.sliceFrame.ctx.nonce Config.aad s.sliceFrame.ctx.ct s.sliceFrame.ctx.mic = some pt) :
      OpenResult s (s.sliceFrame.fillDecrypted pt).startScan

theorem openFrame_result {s t : State} (h : openFrame s = .next t) : OpenResult s t := by
  obtain ⟨kind, -, hf⟩ | ⟨hr, -⟩ | ⟨-, hlen, ho⟩ := openFrame_cases s
  · obtain rfl : s.raiseFatal kind = t := by simpa [hf] using h
    exact .fatal kind
  · simp [hr] at h
  · obtain rfl : verifyAndFill s.sliceFrame = t := by simpa [ho] using h
    cases hopen : aeadOpen s.inp.key s.sliceFrame.ctx.nonce Config.aad s.sliceFrame.ctx.ct s.sliceFrame.ctx.mic with
    | none =>
      rw [verifyAndFill_none hopen]
      exact .unverified
    | some pt =>
      rw [verifyAndFill_some hopen]
      exact .opened pt hlen hopen

theorem openFrame_refused_only {s : State} {r : Refusal} (h : openFrame s = .refused r) :
    r = .ccmLengthField ∧ 2 ^ 24 ≤ s.inp.frameLen - 8 := by
  obtain ⟨kind, -, hf⟩ | ⟨hr, hbig⟩ | ⟨-, -, ho⟩ := openFrame_cases s
  · simp [hf] at h
  · exact ⟨by simpa [hr] using h.symm, hbig⟩
  · simp [ho] at h

/-- `DECODE_ENC` is an open of the frame from the started call, or ends at once for an unknown address (46 R252,
R253). -/
theorem execDecodeEnc_result {s t : State} (h : execDecodeEnc s = .next t) : OpenResult s.beginCall.enterOpen t := by
  simp only [execDecodeEnc] at h
  split at h
  · obtain rfl : s.beginCall.enterOpen.raiseFatal .schemeUnavailable = t := by simpa using h
    exact .fatal _
  · exact openFrame_result h

theorem execDecodeEnc_refused_only {s : State} {r : Refusal} (h : execDecodeEnc s = .refused r) :
    r = .ccmLengthField ∧ 2 ^ 24 ≤ s.inp.frameLen - 8 := by
  simp only [execDecodeEnc] at h
  split at h
  · simp at h
  · exact openFrame_refused_only (s := s.beginCall.enterOpen) h

/-! ### The selected operation -/

/-- The three operations by the value of `SVC_ID` (30 R87). -/
theorem decodeService_cases (svcId : BitVec 16) :
    (svcId = Config.svcPlain ∧ decodeService svcId = .decodePlain) ∨
    (svcId = Config.svcEnc ∧ decodeService svcId = .decodeEnc) ∨
    (svcId ≠ Config.svcPlain ∧ svcId ≠ Config.svcEnc ∧ decodeService svcId = .notApplicable svcId) := by
  by_cases hp : svcId = Config.svcPlain
  · exact .inl ⟨hp, by simp [decodeService, hp]⟩
  by_cases he : svcId = Config.svcEnc
  · exact .inr (.inl ⟨he, by simp only [decodeService, if_neg hp, if_pos he]⟩)
  · exact .inr (.inr ⟨hp, he, by simp [decodeService, hp, he]⟩)

/-- A frame-level operation sees of the state only what the start of the call keeps. -/
theorem exec_decodeService_congr {s t : State} (hi : s.inp = t.inp) (hc : s.cfg = t.cfg) (hd : s.draws = t.draws) :
    exec (decodeService s.inp.svcId) s = exec (decodeService t.inp.svcId) t := by
  have hb := beginCall_congr hi hc hd
  rw [hi]
  obtain ⟨-, h⟩ | ⟨-, h⟩ | ⟨-, -, h⟩ := decodeService_cases t.inp.svcId
  · simp only [h, exec, execDecodePlain, hb]
  · simp only [h, exec, execDecodeEnc, hb, hi]
  · simp only [h, exec, execNotApplicable, hb]

/-! ### The record at the cursor -/

/-- The instruction of a fetched row is encoded by as many bytes as its control byte declares (30 R82). -/
theorem recordBytes_rowInstr_length {ctrl mid : Byte} {raw : Bytes} {row : RecordRow} (h : recordRow ctrl = some row)
    (hl : raw.length = (ctrlDlen ctrl).toNat) :
    (recordBytes (rowInstr row ctrl mid raw)).length = 2 + (ctrlDlen ctrl).toNat := by
  by_cases he : row = .empty
  · subst he
    rw [(recordRow_payload h).mp rfl]
    rfl
  · rw [← hl, Nat.add_comm]
    cases row with
    | empty => exact absurd rfl he
    | _ => rfl

/-- The three ways of a pass of the scan loop, the record that runs among them well formed and inside `PLEN`. -/
theorem step_scan_cases {s : State} (hp : s.phase = .scan) :
    (s.plen - s.offset < 2 ∧ step s = .next s.finishScan) ∨
    (2 ≤ s.plen - s.offset ∧ s.plen < s.offset + 2 + (ctrlDlen (s.pbuf.read s.offset)).toNat ∧
      step s = .next (s.stopTruncated (s.pbuf.read s.offset) (s.pbuf.read (s.offset + 1)))) ∨
    ∃ i t, i.wf = true ∧ i.isRecord = true ∧ step s = .next t ∧ exec i s = .next t ∧ t.offset ≤ s.plen := by
  obtain ⟨hend, hf⟩ | ⟨hmore, htrunc, hf⟩ | ⟨-, hin, row, hrow, hf⟩ := fetchRecord_cases s
  · exact .inl ⟨hend, step_scan_answer hp hf⟩
  · exact .inr (.inl ⟨hmore, htrunc, step_scan_answer hp hf⟩)
  · have hlen := Memory.span_length s.pbuf (s.offset + 2) (ctrlDlen (s.pbuf.read s.offset)).toNat
    have hw := rowInstr_wf (mid := s.pbuf.read (s.offset + 1)) hrow hlen
    have hi := rowInstr_isRecord row (s.pbuf.read s.offset) (s.pbuf.read (s.offset + 1))
      (s.pbuf.span (s.offset + 2) (ctrlDlen (s.pbuf.read s.offset)).toNat)
    obtain ⟨t, he⟩ := exec_record_completes hw hi s
    have ho := exec_record_offset hi he
    rw [recordBytes_rowInstr_length hrow hlen] at ho
    exact .inr (.inr ⟨_, t, hw, hi, (step_scan_run hp hf).trans he, he, by omega⟩)

/-! ### One step -/

/-- All that a step can give, by phase. -/
inductive StepResult (s : State) : State → Prop
  | plain (hp : s.phase = .idle) (hs : s.inp.svcId = Config.svcPlain) :
      StepResult s s.beginCall.fillPlain.startScan
  | enc {t : State} (hp : s.phase = .idle) (hs : s.inp.svcId = Config.svcEnc)
      (ho : OpenResult s.beginCall.enterOpen t) : StepResult s t
  | notApplicable (hp : s.phase = .idle) (hplain : s.inp.svcId ≠ Config.svcPlain)
      (henc : s.inp.svcId ≠ Config.svcEnc) : StepResult s s.beginCall.stopNotApplicable
  | opening {t : State} (hp : s.phase = .opening) (ho : OpenResult s t) : StepResult s t
  | cleanEnd (hp : s.phase = .scan) (hend : s.plen - s.offset < 2) : StepResult s s.finishScan
  | truncated (hp : s.phase = .scan) (hmore : 2 ≤ s.plen - s.offset)
      (htrunc : s.plen < s.offset + 2 + (ctrlDlen (s.pbuf.read s.offset)).toNat) :
      StepResult s (s.stopTruncated (s.pbuf.read s.offset) (s.pbuf.read (s.offset + 1)))
  | record {i : Instr} {t : State} (hp : s.phase = .scan) (hw : i.wf = true) (hi : i.isRecord = true)
      (he : exec i s = .next t) (hin : t.offset ≤ s.plen) : StepResult s t
  | rest (hp : s.phase = .done) : StepResult s s

/-- The inversion of a step. -/
theorem step_result {s t : State} (h : step s = .next t) : StepResult s t := by
  cases hp : s.phase with
  | idle =>
    rw [step_idle hp] at h
    obtain ⟨hs, hi⟩ | ⟨hs, hi⟩ | ⟨hplain, henc, hi⟩ := decodeService_cases s.inp.svcId <;> rw [hi] at h
    · obtain rfl : s.beginCall.fillPlain.startScan = t := by simpa [exec, execDecodePlain] using h
      exact .plain hp hs
    · exact .enc hp hs (execDecodeEnc_result h)
    · obtain rfl : s.beginCall.stopNotApplicable = t := by simpa [exec, execNotApplicable] using h
      exact .notApplicable hp hplain henc
  | opening => exact .opening hp (openFrame_result (step_opening hp ▸ h))
  | scan =>
    obtain ⟨hend, hs⟩ | ⟨hmore, htrunc, hs⟩ | ⟨i, u, hw, hi, hs, he, hin⟩ := step_scan_cases hp <;>
      obtain rfl := Host.Outcome.next.inj (hs.symm.trans h)
    · exact .cleanEnd hp hend
    · exact .truncated hp hmore htrunc
    · exact .record hp hw hi he hin
  | done =>
    obtain rfl := Host.Outcome.next.inj ((step_done hp).symm.trans h)
    exact .rest hp

/-- Settles O9: by phase; only the open of a frame refuses, and a decoded record always completes. -/
theorem stepRefusesOnlyOversizeFrames : Obligations.StepRefusesOnlyOversizeFrames := by
  intro s r h
  cases hp : s.phase with
  | idle =>
    rw [step_idle hp] at h
    obtain ⟨-, hi⟩ | ⟨hs, hi⟩ | ⟨-, -, hi⟩ := decodeService_cases s.inp.svcId <;> rw [hi] at h
    · simp [exec, execDecodePlain] at h
    · obtain ⟨hr, hbig⟩ := execDecodeEnc_refused_only h
      exact ⟨hr, hbig, .inr ⟨rfl, hs⟩⟩
    · simp [exec, execNotApplicable] at h
  | opening =>
    obtain ⟨hr, hbig⟩ := openFrame_refused_only (step_opening hp ▸ h)
    exact ⟨hr, hbig, .inl rfl⟩
  | scan =>
    obtain ⟨-, hs⟩ | ⟨-, -, hs⟩ | ⟨_, _, -, -, hs, -⟩ := step_scan_cases hp <;> simp [hs] at h
  | done => simp [step_done hp] at h

/-- Settles O2: the first step starts the call, which keeps only the inputs, the configuration and the counter. -/
theorem callDependsOnlyOnItsInputs : Obligations.CallDependsOnlyOnItsInputs := by
  intro s t k hs ht hi hc hd
  refine runSteps_succ_congr k ?_
  rw [step_idle hs, step_idle ht, exec_decodeService_congr hi hc hd]

/-! ### Inputs and configuration -/

/-- The configuration and the call inputs are as before (10 R47). -/
def KeepsInputs (s t : State) : Prop := t.cfg = s.cfg ∧ t.inp = s.inp

theorem OpenResult.keepsInputs {s t : State} (h : OpenResult s t) : KeepsInputs s t := by
  cases h <;> exact ⟨rfl, rfl⟩

theorem RecordEffect.keepsInputs {s t : State} (e : RecordEffect s t) : KeepsInputs s t := ⟨e.cfg, e.inp⟩

theorem exec_keepsInputs {i : Instr} {s t : State} (h : exec i s = .next t) : KeepsInputs s t := by
  by_cases hi : i.isRecord = true
  · exact (exec_record_effect hi h).keepsInputs
  cases i with
  | decodePlain =>
    obtain rfl : s.beginCall.fillPlain.startScan = t := by simpa [exec, execDecodePlain] using h
    exact ⟨rfl, rfl⟩
  | decodeEnc => exact (execDecodeEnc_result h).keepsInputs
  | notApplicable svcId =>
    obtain rfl : s.beginCall.stopNotApplicable = t := by simpa [exec, execNotApplicable] using h
    exact ⟨rfl, rfl⟩
  | _ => exact absurd rfl hi

theorem StepResult.keepsInputs {s t : State} (h : StepResult s t) : KeepsInputs s t := by
  cases h with
  | enc _ _ ho => exact ho.keepsInputs
  | opening _ ho => exact ho.keepsInputs
  | record _ _ _ he _ => exact exec_keepsInputs he
  | _ => exact ⟨rfl, rfl⟩

/-- Settles O10: by the inversions of `exec` and of `step`, none of whose results writes an input. -/
theorem inputsAndConfigurationAreNeverWritten : Obligations.InputsAndConfigurationAreNeverWritten := by
  refine ⟨fun i s t h => ?_, fun s t h => (step_result h).keepsInputs⟩
  obtain ⟨hcfg, hinp⟩ := exec_keepsInputs h
  exact ⟨hcfg, hinp, fun a => by rw [hinp]⟩

/-! ### The cursor -/

/-- Settles O36: a complete record moves the cursor by its size, the two stops leave it. -/
theorem cursorOnlyAdvances : Obligations.CursorOnlyAdvances := by
  intro s t hp h
  obtain ⟨-, hs⟩ | ⟨-, -, hs⟩ | ⟨i, u, -, hi, hs, he, hin⟩ := step_scan_cases hp <;>
    obtain rfl := Host.Outcome.next.inj (hs.symm.trans h)
  · exact .inr ⟨rfl, rfl⟩
  · exact .inr ⟨rfl, rfl⟩
  · have e := exec_record_effect hi he
    obtain ⟨hlo, hhi⟩ := e.offset_bounds
    exact .inl ⟨e.phase.trans hp, hlo, hhi, e.plen ▸ hin⟩

end Sys2Proof.Machine
end

section
/-! The invariant of the machine (`State.Inv`): it holds at reset and every step keeps it, one lemma for each kind of
state a step can end in. -/

namespace Sys2Proof.Machine

/-- Settles O1: the start of a call is the block's reset but for what it keeps. -/
theorem startOfCallHasTheStatedValues : Obligations.StartOfCallHasTheStatedValues := by
  intro s r hr
  rcases List.mem_pair.mp hr with rfl | rfl <;> exact ⟨rfl, rfl, rfl, rfl, rfl, rfl, rfl, rfl, rfl, rfl, rfl, rfl⟩

/-- Settles O11: every list and memory is empty and no call has run. -/
theorem resetMeetsTheInvariant : Obligations.ResetMeetsTheInvariant where
  frameForm := Memory.wf_nil
  pbufForm := Memory.wf_nil
  cursorInside := le_rfl
  noticesRising := List.Pairwise.nil
  entriesBounded := le_rfl
  knownBounded := le_rfl
  errorsBehind := by simp [State.reset, Outputs.reset]
  openingFresh := by simp [State.reset]
  scanRunning := by simp [State.reset]
  doneOk := by simp [State.reset]
  doneOther := by simp [State.reset]
  verdicts := by simp [verdictsAgree, State.reset]

/-! ### The verdicts by phase -/

/-- The verdicts of a scan, running or ended (46 R255). -/
def scanVerdicts (s : State) : Prop :=
  (s.inp.svcId = Config.svcPlain ∧ s.out.decryptOk = none ∧ s.out.keyVerified = none) ∨
  (s.inp.svcId = Config.svcEnc ∧ s.out.decryptOk = some true ∧ s.out.keyVerified = some true)

theorem verdictsAgree_scan {s : State} (hp : s.phase = .scan) : verdictsAgree s ↔ scanVerdicts s := by
  simp [verdictsAgree, scanVerdicts, hp]

/-- Only an encrypted call runs the Decryptor. -/
theorem verdictsAgree_opening {s : State} (hp : s.phase = .opening) (hv : verdictsAgree s) :
    s.inp.svcId = Config.svcEnc := by
  obtain ⟨-, -, -, hopening⟩ := hv
  exact hopening hp

theorem verdictsAgree_ok {s : State} (hp : s.phase = .done) (hs : s.out.status = .ok) :
    verdictsAgree s ↔ scanVerdicts s := by
  simp [verdictsAgree, scanVerdicts, hp, hs]

theorem verdictsAgree_raiseFatal {s : State} (kind : FatalKind) (hs : s.inp.svcId = Config.svcEnc) :
    verdictsAgree (s.raiseFatal kind) := by
  cases kind <;> simp [verdictsAgree, hs, FatalKind.status, FatalKind.keyVerified]

/-! ### The states a step ends in -/

/-- A scan that starts over a canonical buffer. -/
theorem startScan_inv {s : State} (hframe : s.inp.frame.wf) (hpbuf : s.pbuf.wf) (hsucc : s.out.success = false)
    (hv : scanVerdicts s) : s.startScan.Inv where
  frameForm := hframe
  pbufForm := hpbuf
  cursorInside := Nat.zero_le _
  noticesRising := List.Pairwise.nil
  entriesBounded := le_rfl
  knownBounded := le_rfl
  errorsBehind := by simp
  openingFresh := by simp
  scanRunning := fun _ => ⟨rfl, hsucc⟩
  doneOk := by simp
  doneOther := by simp
  verdicts := (verdictsAgree_scan rfl).mpr hv

/-- A call that ends without a scan, its outputs as they were at its start but for verdicts and status. -/
theorem unscanned_inv {s : State} (hframe : s.inp.frame.wf) (hpbuf : s.pbuf.wf) (hcur : s.offset ≤ s.plen)
    (hp : s.phase = .done) (hne : s.out.status ≠ .ok)
    (hout : s.out = { Outputs.reset with
      decryptOk := s.out.decryptOk, keyVerified := s.out.keyVerified, status := s.out.status })
    (hv : verdictsAgree s) : s.Inv := by
  have hres : s.out.results = [] := by rw [hout]; rfl
  have hnot : s.out.notices = [] := by rw [hout]; rfl
  have herr : s.out.errors = [] := by rw [hout]; rfl
  have htru : s.out.truncated = false := by rw [hout]; rfl
  have hsuc : s.out.success = false := by rw [hout]; rfl
  have hkno : s.out.knownCount = 0 := by rw [hout]; rfl
  exact
    { frameForm := hframe
      pbufForm := hpbuf
      cursorInside := hcur
      noticesRising := by simp [hnot]
      entriesBounded := by simp [hres, herr]
      knownBounded := by simp [hkno]
      errorsBehind := by simp [herr]
      openingFresh := by simp [hp]
      scanRunning := by simp [hp]
      doneOk := fun _ h => absurd h hne
      doneOther := fun _ _ => ⟨hres, hnot, herr, htru, hsuc⟩
      verdicts := hv }

/-- A fatal error before any output has been touched (60 R280). -/
theorem raiseFatal_inv {s : State} (kind : FatalKind) (hframe : s.inp.frame.wf) (hpbuf : s.pbuf.wf)
    (hcur : s.offset ≤ s.plen) (hout : s.out = Outputs.reset) (hs : s.inp.svcId = Config.svcEnc) :
    (s.raiseFatal kind).Inv :=
  unscanned_inv hframe hpbuf hcur rfl (by cases kind <;> simp [FatalKind.status]) (by simp [hout])
    (verdictsAgree_raiseFatal kind hs)

/-- The Decryptor, entered with fresh outputs, ends in a state of the invariant. -/
theorem OpenResult.inv {s t : State} (h : OpenResult s t) (hframe : s.inp.frame.wf) (hpbuf : s.pbuf.wf)
    (hcur : s.offset ≤ s.plen) (hout : s.out = Outputs.reset) (hs : s.inp.svcId = Config.svcEnc) : t.Inv := by
  cases h with
  | fatal kind => exact raiseFatal_inv kind hframe hpbuf hcur hout hs
  | unverified => exact raiseFatal_inv _ hframe hpbuf hcur hout hs
  | opened pt _ _ =>
    exact startScan_inv hframe (Memory.ofBytes_wf 0 pt) (by simp [hout, Outputs.reset]) (.inr ⟨hs, rfl, rfl⟩)

/-- The two stops of a scan: of the outputs `TRUNCATED`, `SUCCESS` and `STATUS` are written. -/
theorem scanStop_inv {s t : State} (h : s.Inv) (hp : s.phase = .scan) (trunc : Bool) (hinp : t.inp = s.inp)
    (hoff : t.offset = s.offset) (hpbuf : t.pbuf = s.pbuf) (hplen : t.plen = s.plen) (hdone : t.phase = .done)
    (hout : t.out = { s.out with truncated := trunc, success := decide (0 < s.out.knownCount), status := .ok }) :
    t.Inv := by
  have hok : t.out.status = .ok := by rw [hout]
  have hv : scanVerdicts t := by
    simpa only [scanVerdicts, hinp, hout] using (verdictsAgree_scan hp).mp h.verdicts
  exact
    { frameForm := hinp ▸ h.frameForm
      pbufForm := hpbuf ▸ h.pbufForm
      cursorInside := by rw [hoff, hplen]; exact h.cursorInside
      noticesRising := by rw [hout]; exact h.noticesRising
      entriesBounded := by rw [hout, hoff]; exact h.entriesBounded
      knownBounded := by rw [hout]; exact h.knownBounded
      errorsBehind := by rw [hout, hoff]; exact h.errorsBehind
      openingFresh := by simp [hdone]
      scanRunning := by simp [hdone]
      doneOk := fun _ _ => by rw [hout]
      doneOther := fun _ hne => absurd hok hne
      verdicts := (verdictsAgree_ok hdone hok).mpr hv }

/-- A record inside `PLEN`: its one entry, if any, is paid for by the 2 bytes or more it occupies. -/
theorem record_inv {s t : State} (h : s.Inv) (hp : s.phase = .scan) (e : RecordEffect s t) (hin : t.offset ≤ s.plen) :
    t.Inv := by
  obtain ⟨htru, hdec, hkey, hsuc, -⟩ := e.out.flags
  obtain ⟨hmove, -⟩ := e.offset_bounds
  have hscan : t.phase = .scan := e.phase.trans hp
  have hv : scanVerdicts t := by
    simpa only [scanVerdicts, e.inp, hdec, hkey] using (verdictsAgree_scan hp).mp h.verdicts
  exact
    { frameForm := e.inp ▸ h.frameForm
      pbufForm := e.pbuf ▸ h.pbufForm
      cursorInside := e.plen ▸ hin
      noticesRising := e.out.notices_rising h.noticesRising
      entriesBounded := by
        have := e.out.entries_le
        have := h.entriesBounded
        omega
      knownBounded := e.out.known_le h.knownBounded
      errorsBehind := fun x hx => by
        rcases e.out.error_mem hx with hx | hx
        · have := h.errorsBehind x hx
          omega
        · omega
      openingFresh := by simp [hscan]
      scanRunning := fun _ => by
        rw [htru, hsuc]
        exact h.scanRunning hp
      doneOk := by simp [hscan]
      doneOther := by simp [hscan]
      verdicts := (verdictsAgree_scan hscan).mpr hv }

/-- Settles O12: by the inversion of a step, each of its results meeting the invariant by a lemma of its own. -/
theorem stepKeepsTheInvariant : Obligations.StepKeepsTheInvariant := by
  intro s t h hstep
  cases step_result hstep with
  | plain _ hs => exact startScan_inv h.frameForm h.frameForm rfl (.inl ⟨hs, rfl, rfl⟩)
  | enc _ hs ho => exact ho.inv h.frameForm Memory.wf_nil le_rfl rfl hs
  | notApplicable _ hplain henc =>
    exact unscanned_inv h.frameForm Memory.wf_nil le_rfl rfl (by simp) rfl
      (by simp [verdictsAgree, hplain, henc, Outputs.reset])
  | opening hp ho =>
    exact ho.inv h.frameForm h.pbufForm h.cursorInside (h.openingFresh hp) (verdictsAgree_opening hp h.verdicts)
  | cleanEnd hp _ =>
    exact scanStop_inv h hp s.out.truncated rfl rfl rfl rfl rfl rfl
  | truncated hp _ _ => exact scanStop_inv h hp true rfl rfl rfl rfl rfl rfl
  | record hp _ hi he hin => exact record_inv h hp (exec_record_effect hi he) hin
  | rest _ => exact h

end Sys2Proof.Machine
end

section
/-! A stream of complete records in `PBUF` (20_memory.md R61, R67): the loop fetches the very record whose bytes
stand at the cursor, so a run executes the records one after the other. -/

namespace Sys2Proof.Machine

/-! ### Spans -/

theorem Memory.span_succ (m : Memory) (a n : Nat) : m.span a (n + 1) = m.read a :: m.span (a + 1) n := by
  rw [Nat.add_comm n 1, Memory.span_add]
  rfl

/-- A string stands in the buffer when its first part does and the rest stands behind it. -/
theorem State.memRead_append {s : State} {a : Nat} {b c : Bytes}
    (h : s.memRead a (b ++ c).length = some (b ++ c)) :
    s.memRead a b.length = some b ∧ s.memRead (a + b.length) c.length = some c := by
  obtain ⟨hin, hspan⟩ := State.memRead_eq_some.mp h
  rw [List.length_append] at hin
  rw [List.length_append, Memory.span_add] at hspan
  obtain ⟨hb, hc⟩ := List.append_inj hspan (Memory.span_length ..)
  exact ⟨State.memRead_eq_some.mpr ⟨by omega, hb⟩, State.memRead_eq_some.mpr ⟨by omega, hc⟩⟩

/-! ### The fields of an encoded record -/

/-- The control byte of a payload form declares the payload's length and selects the row of its format (30 R80,
R86). -/
theorem recordRow_payloadCtrl {f : BitVec 3} {raw : Bytes} {row : RecordRow}
    (hrow : ∀ n : BitVec 5, n ≠ 0 → recordRow (ctrlByte f n) = some row) (hl : payloadLegal raw = true) :
    raw.length = (ctrlDlen (ctrlByte f (BitVec.ofNat 5 raw.length))).toNat ∧
      recordRow (ctrlByte f (BitVec.ofNat 5 raw.length)) = some row := by
  have hd := dlen_of_legal hl
  have hpos := (payloadLegal_iff.mp hl).1
  refine ⟨by rw [ctrlDlen_ctrlByte, hd], hrow _ fun h0 => ?_⟩
  have : raw.length = 0 := by rw [← hd, h0]; rfl
  omega

/-- The bytes of a well-formed record are a control byte, an id and the payload that the control byte declares, and the
row of the control byte makes the record of them (30 R81, R86). -/
theorem recordBytes_fields {i : Instr} (hw : i.wf = true) (hi : i.isRecord = true) :
    ∃ ctrl mid raw row, recordBytes i = ctrl :: mid :: raw ∧ i = rowInstr row ctrl mid raw ∧
      raw.length = (ctrlDlen ctrl).toNat ∧ recordRow ctrl = some row := by
  cases i with
  | empty dfmt mid =>
    have hrow : ∀ f : BitVec 3, recordRow (ctrlByte f 0) = some .empty := by decide
    exact ⟨_, mid, [], .empty, rfl, by simp [rowInstr], by simp, hrow dfmt⟩
  | uint mid raw => exact ⟨_, mid, raw, .uint, rfl, rfl, recordRow_payloadCtrl (by decide) hw⟩
  | sint mid raw => exact ⟨_, mid, raw, .sint, rfl, rfl, recordRow_payloadCtrl (by decide) hw⟩
  | float mid raw => exact ⟨_, mid, raw, .float, rfl, rfl, recordRow_payloadCtrl (by decide) hw⟩
  | utf8 mid raw => exact ⟨_, mid, raw, .utf8, rfl, rfl, recordRow_payloadCtrl (by decide) hw⟩
  | macovr mid raw => exact ⟨_, mid, raw, .macovr, rfl, rfl, recordRow_payloadCtrl (by decide) hw⟩
  | bad5 mid raw => exact ⟨_, mid, raw, .bad5, rfl, rfl, recordRow_payloadCtrl (by decide) hw⟩
  | bad6 mid raw => exact ⟨_, mid, raw, .bad6, rfl, rfl, recordRow_payloadCtrl (by decide) hw⟩
  | bad7 mid raw => exact ⟨_, mid, raw, .bad7, rfl, rfl, recordRow_payloadCtrl (by decide) hw⟩
  | decodePlain => simp [Instr.isRecord] at hi
  | decodeEnc => simp [Instr.isRecord] at hi
  | notApplicable svcId => simp [Instr.isRecord] at hi

/-! ### The record at the cursor runs -/

/-- The loop fetches the record whose bytes stand at the cursor. -/
theorem fetchRecord_of_recordBytes {i : Instr} {s : State} (hw : i.wf = true) (hi : i.isRecord = true)
    (h : s.memRead s.offset (recordBytes i).length = some (recordBytes i)) : s.fetchRecord = .run i := by
  obtain ⟨ctrl, mid, raw, row, hbytes, rfl, hlen, hrow⟩ := recordBytes_fields hw hi
  rw [hbytes] at h
  obtain ⟨hin, hspan⟩ := State.memRead_eq_some.mp h
  rw [List.length_cons, List.length_cons] at hin hspan
  rw [Memory.span_succ, Memory.span_succ, hlen] at hspan
  injection hspan with hctrl htail
  injection htail with hmid hraw
  subst hctrl hmid
  rw [fetchRecord_complete (by omega) (by omega) hrow, hraw]

theorem step_of_recordBytes {i : Instr} {s : State} (hp : s.phase = .scan) (hw : i.wf = true) (hi : i.isRecord = true)
    (h : s.memRead s.offset (recordBytes i).length = some (recordBytes i)) : step s = exec i s :=
  step_scan_run hp (fetchRecord_of_recordBytes hw hi h)

/-- A record leaves what the buffer reads. -/
theorem RecordEffect.memRead {s t : State} (e : RecordEffect s t) (a n : Nat) : t.memRead a n = s.memRead a n := by
  simp only [State.memRead, e.plen, e.pbuf]

theorem streamBytes_cons (i : Instr) (is : List Instr) : streamBytes (i :: is) = recordBytes i ++ streamBytes is :=
  List.flatMap_cons

/-- Settles O17: by induction on the records; the first one runs and leaves the cursor at the bytes of the others. -/
theorem recordsRunInBufferOrder : Obligations.RecordsRunInBufferOrder := by
  intro is
  induction is with
  | nil => exact fun s _ hp _ => ⟨rfl, s, rfl, rfl, hp⟩
  | cons i is ih =>
    intro s hrecs hp hmem
    obtain ⟨⟨hw, hi⟩, hrest⟩ := List.forall_mem_cons.mp hrecs
    rw [streamBytes_cons] at hmem ⊢
    obtain ⟨hfirst, hbehind⟩ := State.memRead_append hmem
    obtain ⟨t, hexec⟩ := exec_record_completes hw hi s
    have e := exec_record_effect hi hexec
    have hoff := exec_record_offset hi hexec
    rw [← hoff, ← e.memRead] at hbehind
    obtain ⟨hrun, u, hu, huoff, hup⟩ := ih t hrest (e.phase.trans hp) hbehind
    rw [List.length_cons, execList_cons hexec, runSteps_succ _ ((step_of_recordBytes hp hw hi hfirst).trans hexec)]
    exact ⟨hrun, u, hu, by rw [huoff, hoff, List.length_append, Nat.add_assoc], hup⟩

end Sys2Proof.Machine
end

section
/-! Where the plaintext of a scan comes from (20_memory.md R70, 44_decryptor.md R200, R201), and that every read of a
step stays inside its buffer (20_memory.md R57, R58). -/

namespace Sys2Proof.Machine

/-! ### The source of the plaintext -/

/-- The plaintext has the length of the ciphertext (44 R199). -/
theorem aeadOpen_length {key aad ct pt : Bytes} {nonce : Nonce} {mic : Bytes4}
    (h : aeadOpen key nonce aad ct mic = some pt) : pt.length = ct.length := by
  simp only [aeadOpen, ccmOpen, Option.ite_none_right_eq_some, Option.some.injEq] at h
  obtain ⟨-, rfl⟩ := h
  exact xorStream_length ..

/-- `PBUF` is the plain frame itself, or the frame opened under the key with its tag verified. -/
def bufferAuthentic (s : State) : Prop :=
  (s.inp.svcId = Config.svcPlain ∧ s.plen = s.inp.frameLen ∧ ∀ a, s.pbuf.read a = s.inp.frame.read a) ∨
  (s.inp.svcId = Config.svcEnc ∧ ∃ pt, opensTo s pt ∧ s.memRead 0 s.plen = some pt ∧ s.plen = pt.length)

theorem plaintextAuthentic_iff {s : State} :
    plaintextAuthentic s ↔ (s.phase = .scan ∨ (s.phase = .done ∧ s.out.status = .ok) → bufferAuthentic s) := Iff.rfl

/-- The source is a matter of the inputs and the buffer alone. -/
theorem bufferAuthentic_congr {s t : State} (hinp : t.inp = s.inp) (hpbuf : t.pbuf = s.pbuf) (hplen : t.plen = s.plen)
    (h : bufferAuthentic s) : bufferAuthentic t := by
  simpa only [bufferAuthentic, opensTo, State.frameRead, State.memRead, hinp, hpbuf, hplen] using h

/-- A call that ends with a status other than `Ok` claims nothing of its buffer. -/
theorem plaintextAuthentic_of_not_ok {s : State} (hp : s.phase = .done) (hs : s.out.status ≠ .ok) :
    plaintextAuthentic s := by
  rw [plaintextAuthentic_iff]
  simp [hp, hs]

theorem raiseFatal_plaintextAuthentic (s : State) (kind : FatalKind) : plaintextAuthentic (s.raiseFatal kind) :=
  plaintextAuthentic_of_not_ok rfl (by cases kind <;> simp [FatalKind.status])

/-- A frame opens to what the open of its slices gives (44 R194, R196). -/
theorem opensTo_of_sliceFrame {s : State} {pt : Bytes} (hlen : 15 ≤ s.inp.frameLen)
    (hopen : aeadOpen s.inp.key s.sliceFrame.ctx.nonce Config.aad s.sliceFrame.ctx.ct s.sliceFrame.ctx.mic = some pt) :
    opensTo s pt :=
  ⟨_, _, _, State.frameRead_eq_some.mpr ⟨by omega, rfl⟩, State.frameRead_eq_some.mpr ⟨by omega, rfl⟩,
    State.frameRead_eq_some.mpr ⟨by omega, rfl⟩, hopen⟩

/-- The Decryptor starts a scan only over a plaintext whose tag has verified (44 R200, R201). -/
theorem OpenResult.plaintextAuthentic {s t : State} (h : OpenResult s t) (hs : s.inp.svcId = Config.svcEnc) :
    plaintextAuthentic t := by
  cases h with
  | fatal kind => exact raiseFatal_plaintextAuthentic s kind
  | unverified => exact raiseFatal_plaintextAuthentic _ _
  | opened pt hlen hopen =>
    have hpt : pt.length = s.inp.frameLen - 8 := by simpa using aeadOpen_length hopen
    refine fun _ => .inr ⟨hs, pt, opensTo_of_sliceFrame hlen hopen, ?_, hpt.symm⟩
    refine State.memRead_eq_some.mpr ⟨by omega, ?_⟩
    simp only [State.startScan_pbuf, State.startScan_plen, State.fillDecrypted_pbuf, State.fillDecrypted_plen,
      State.setContext_inp, ← hpt]
    exact Memory.span_ofBytes pt

/-- Settles O14: by the inversion of a step; a scan starts only over the frame or a verified plaintext, and neither a
record nor a stop writes the buffer. -/
theorem stepKeepsThePlaintextAuthentic : Obligations.StepKeepsThePlaintextAuthentic := by
  intro s t hinv h hstep
  cases step_result hstep with
  | plain _ hs => exact fun _ => .inl ⟨hs, rfl, fun _ => rfl⟩
  | enc _ hs ho => exact ho.plaintextAuthentic hs
  | notApplicable _ _ _ => exact plaintextAuthentic_of_not_ok rfl (by simp)
  | opening hp ho => exact ho.plaintextAuthentic (verdictsAgree_opening hp hinv.verdicts)
  | cleanEnd hp _ => exact fun _ => bufferAuthentic_congr (s := s) rfl rfl rfl (h (.inl hp))
  | truncated hp _ _ => exact fun _ => bufferAuthentic_congr (s := s) rfl rfl rfl (h (.inl hp))
  | record hp _ hi he _ =>
    have e := exec_record_effect hi he
    exact fun _ => bufferAuthentic_congr e.inp e.pbuf e.plen (h (.inl hp))
  | rest _ => exact h

/-! ### No fault -/

/-- The slices of a frame that is long enough lie inside it (20 R57). -/
theorem openFrame_no_fault (s : State) (f : Fault) : openFrame s ≠ .fault f := by
  obtain ⟨kind, -, ho⟩ | ⟨ho, -⟩ | ⟨-, -, ho⟩ := openFrame_cases s <;> simp [ho]

theorem execDecodeEnc_no_fault (s : State) (f : Fault) : execDecodeEnc s ≠ .fault f := by
  simp only [execDecodeEnc]
  split
  · simp
  · exact openFrame_no_fault _ f

/-- Settles O8: by phase; the Decryptor slices inside the frame, and a pass of the scan loop always answers a next
state. -/
theorem stepNeverFaults : Obligations.StepNeverFaults := by
  intro s f
  cases hp : s.phase with
  | idle =>
    rw [step_idle hp]
    obtain ⟨-, hi⟩ | ⟨-, hi⟩ | ⟨-, -, hi⟩ := decodeService_cases s.inp.svcId <;> rw [hi]
    · simp [exec, execDecodePlain]
    · exact execDecodeEnc_no_fault s f
    · simp [exec, execNotApplicable]
  | opening => exact step_opening hp ▸ openFrame_no_fault s f
  | scan => obtain ⟨-, hs⟩ | ⟨-, -, hs⟩ | ⟨_, _, -, -, hs, -⟩ := step_scan_cases hp <;> simp [hs]
  | done => simp [step_done hp]

end Sys2Proof.Machine
end

section
/-! The two decoders against the encoder (30_encoding.md R80 to R87, R102): the record decoder reads a control byte, an
id and the payload that the control byte declares, and the encoder writes the same fields back. -/

namespace Sys2Proof.Machine

/-! ### The record decoder by its fields -/

/-- The decoder reads a record exactly where the fields of one stand (30 R81, R82). -/
theorem decodeRecord_eq_ok_iff {bytes rest : Bytes} {i : Instr} :
    decodeRecord bytes = .ok (i, rest) ↔
      ∃ ctrl mid raw row, bytes = ctrl :: mid :: (raw ++ rest) ∧ i = rowInstr row ctrl mid raw ∧
        raw.length = (ctrlDlen ctrl).toNat ∧ recordRow ctrl = some row := by
  constructor
  · intro h
    match bytes, h with
    | ctrl :: mid :: tail, h =>
      obtain ⟨row, hrow⟩ := recordRow_total ctrl
      by_cases hshort : tail.length < (ctrlDlen ctrl).toNat
      · simp [decodeRecord, hshort] at h
      · simp only [decodeRecord, if_neg hshort, hrow, Except.ok.injEq, Prod.mk.injEq] at h
        obtain ⟨rfl, rfl⟩ := h
        exact ⟨ctrl, mid, tail.take _, row, by rw [List.take_append_drop], rfl,
          List.length_take_of_le (by omega), hrow⟩
  · rintro ⟨ctrl, mid, raw, row, rfl, rfl, hlen, hrow⟩
    simp [decodeRecord, ← hlen, hrow]

/-- The control byte of a payload form is put together again from the row's format and the payload's length (30 R80). -/
theorem encodePayload_of_row {ctrl mid : Byte} {raw : Bytes} {row : RecordRow} {f : BitVec 3}
    (hf : ∀ c : Byte, recordRow c = some row → ctrlDfmt c = f) (hlen : raw.length = (ctrlDlen ctrl).toNat)
    (hrow : recordRow ctrl = some row) : encodePayload f mid raw = .record (ctrl :: mid :: raw) := by
  rw [encodePayload, hlen, BitVec.ofNat_toNat, BitVec.setWidth_eq, ← hf ctrl hrow, ctrlByte_fields]

/-- The instruction of a row is encoded by the fields it was cut from (30 R81, R86). -/
theorem encode_rowInstr {ctrl mid : Byte} {raw : Bytes} {row : RecordRow} (hlen : raw.length = (ctrlDlen ctrl).toNat)
    (hrow : recordRow ctrl = some row) : encode (rowInstr row ctrl mid raw) = .record (ctrl :: mid :: raw) := by
  cases row with
  | empty =>
    have hd : (ctrlDlen ctrl).toNat = 0 := (recordRow_payload hrow).mp rfl
    have h0 : ctrlDlen ctrl = 0 := BitVec.eq_of_toNat_eq hd
    obtain rfl := List.eq_nil_of_length_eq_zero (hlen.trans hd)
    rw [rowInstr, encode, ← h0, ctrlByte_fields]
  | uint => exact encodePayload_of_row (by decide) hlen hrow
  | sint => exact encodePayload_of_row (by decide) hlen hrow
  | float => exact encodePayload_of_row (by decide) hlen hrow
  | utf8 => exact encodePayload_of_row (by decide) hlen hrow
  | macovr => exact encodePayload_of_row (by decide) hlen hrow
  | bad5 => exact encodePayload_of_row (by decide) hlen hrow
  | bad6 => exact encodePayload_of_row (by decide) hlen hrow
  | bad7 => exact encodePayload_of_row (by decide) hlen hrow

/-! ### Records and frame-level operations -/

theorem recordBytes_of_encode {i : Instr} {bytes : Bytes} (h : encode i = .record bytes) : recordBytes i = bytes := by
  rw [recordBytes, h]

theorem encode_of_isRecord {i : Instr} (hi : i.isRecord = true) : encode i = .record (recordBytes i) := by
  cases i with
  | decodePlain => simp [Instr.isRecord] at hi
  | decodeEnc => simp [Instr.isRecord] at hi
  | notApplicable svcId => simp [Instr.isRecord] at hi
  | _ => rfl

theorem svcUnrecognized_iff {svcId : BitVec 16} :
    svcUnrecognized svcId = true ↔ svcId ≠ Config.svcPlain ∧ svcId ≠ Config.svcEnc := by
  simp [svcUnrecognized]

theorem decodeService_of_unrecognized {svcId : BitVec 16} (hp : svcId ≠ Config.svcPlain) (he : svcId ≠ Config.svcEnc) :
    decodeService svcId = .notApplicable svcId := by
  rw [decodeService, if_neg hp, if_neg he]

/-- A frame-level operation is the one that the identifier of its code selects (30 R87). -/
theorem decode_encode_of_frameLevel {i : Instr} (hw : i.wf = true) (hi : ¬ i.isRecord = true) :
    decode (encode i) = .ok (i, []) := by
  cases i with
  | decodePlain => rfl
  | decodeEnc => rfl
  | notApplicable svcId =>
    obtain ⟨hp, he⟩ := svcUnrecognized_iff.mp hw
    rw [encode, decode, decodeService_of_unrecognized hp he]
  | _ => exact absurd rfl hi

/-! ### The obligations -/

/-- Settles O20: the decoder reads the fields of which the record's bytes consist. -/
theorem recordsDelimitThemselves : Obligations.RecordsDelimitThemselves := by
  intro i rest hw hi
  obtain ⟨ctrl, mid, raw, row, hbytes, hinstr, hlen, hrow⟩ := recordBytes_fields hw hi
  exact decodeRecord_eq_ok_iff.mpr ⟨ctrl, mid, raw, row, by rw [hbytes]; rfl, hinstr, hlen, hrow⟩

/-- Settles O19: a record delimits itself, so nothing is left over of its own bytes; a frame-level operation is selected
by its identifier. -/
theorem decodeOfEncode : Obligations.DecodeOfEncode := by
  intro i hw
  by_cases hi : i.isRecord = true
  · rw [encode_of_isRecord hi, decode, ← List.append_nil (recordBytes i)]
    exact recordsDelimitThemselves i [] hw hi
  · exact decode_encode_of_frameLevel hw hi

/-- Settles O21: the fields that the decoder read are well formed and encode themselves. -/
theorem decodedBytesReencode : Obligations.DecodedBytesReencode := by
  intro bytes i rest h
  obtain ⟨ctrl, mid, raw, row, rfl, rfl, hlen, hrow⟩ := decodeRecord_eq_ok_iff.mp h
  refine ⟨rowInstr_wf hrow hlen, rowInstr_isRecord row ctrl mid raw, ?_⟩
  rw [recordBytes_of_encode (encode_rowInstr hlen hrow)]
  rfl

/-- Settles O23: by evaluating the map at each of the 256 control bytes. -/
theorem controlByteSelectsItsRow : Obligations.ControlByteSelectsItsRow := by
  unfold Obligations.ControlByteSelectsItsRow
  decide

/-- Settles O24: the two selected identifiers by evaluation, any other one by the default row. -/
theorem selectorComparesAllBits : Obligations.SelectorComparesAllBits :=
  ⟨rfl, rfl, fun _ hp he => decodeService_of_unrecognized hp he⟩

end Sys2Proof.Machine
end

section
/-! The signed operand as two's complement (30_encoding.md R95, 41_numeric_codec.md R112): the sign bit of a
little-endian string is bit 7 of its last byte. -/

namespace Sys2Proof.Machine

theorem leNat_concat (bs : Bytes) (b : Byte) : leNat (bs ++ [b]) = leNat bs + 256 ^ bs.length * b.toNat := by
  induction bs with
  | nil => simp
  | cons c bs ih =>
    rw [List.cons_append, leNat_cons, leNat_cons, ih, List.length_cons, pow_succ]
    ring

theorem leNat_lt_two_pow (b : Bytes) : leNat b < 2 ^ (8 * b.length) := by
  rw [pow_mul]
  exact leNat_lt b

/-- The most significant bit of a string is bit 7 of its last byte (00 R14). -/
theorem two_pow_le_leNat_iff {raw : Bytes} (h : 1 ≤ raw.length) :
    2 ^ (8 * raw.length - 1) ≤ leNat raw ↔ 128 ≤ (raw.getD (raw.length - 1) 0).toNat := by
  obtain rfl | ⟨bs, b, rfl⟩ := List.eq_nil_or_concat' raw
  · simp at h
  have hpow : 2 ^ (8 * (bs.length + 1) - 1) = 128 * 256 ^ bs.length := by
    rw [show 8 * (bs.length + 1) - 1 = 7 + 8 * bs.length by omega, pow_add, pow_mul 2 8]
    rfl
  have hdiv : leNat (bs ++ [b]) / 256 ^ bs.length = b.toNat := by
    rw [leNat_concat, Nat.add_mul_div_left _ _ (by positivity), Nat.div_eq_of_lt (leNat_lt bs), Nat.zero_add]
  have hlast : (bs ++ [b]).getD (bs.length + 1 - 1) 0 = b := by simp
  rw [List.length_append, List.length_singleton, hpow, hlast, ← Nat.le_div_iff_mul_le (by positivity), hdiv]

/-- Settles O41: the operand splits at the sign bit, which is that of the last byte; the range is that of `leNat`. -/
theorem signedOperandIsTwosComplement : Obligations.SignedOperandIsTwosComplement := by
  refine ⟨fun raw hlen => ⟨_, signedOperand_of_length hlen, ?_⟩, rfl, rfl⟩
  have hlt := leNat_lt_two_pow raw
  have hdouble : 2 ^ (8 * raw.length) = 2 * 2 ^ (8 * raw.length - 1) := by
    rw [← pow_succ', Nat.sub_add_cancel (by omega)]
  have hdoubleInt : (2 : Int) ^ (8 * raw.length) = 2 * 2 ^ (8 * raw.length - 1) := by exact_mod_cast hdouble
  have hcast : ((2 ^ (8 * raw.length - 1) : Nat) : Int) = 2 ^ (8 * raw.length - 1) := by norm_num
  rw [hdouble] at hlt
  rw [← two_pow_le_leNat_iff hlen, hdoubleInt, ← hcast]
  generalize 2 ^ (8 * raw.length - 1) = half at hlt ⊢
  split <;> omega

end Sys2Proof.Machine
end

section
/-! The text operand and the UTF-8 encoding (41_numeric_codec.md R126 to R128): the table of R127 as a relation between a
scalar value and its bytes, which the decoder reads and the encoder writes. -/

namespace Sys2Proof.Machine

/-! ### The table of R127 -/

/-- A scalar value stands with its bytes in one of the rows of the table of R127. -/
inductive Utf8Row : Char → Bytes → Prop
  | one {b1 : Byte} (h : utf8One b1 = true) : Utf8Row (Char.ofNat b1.toNat) [b1]
  | two {b1 b2 : Byte} (h : utf8Two b1 b2 = true) : Utf8Row (scalarTwo b1 b2) [b1, b2]
  | three {b1 b2 b3 : Byte} (h : utf8Three b1 b2 b3 = true) : Utf8Row (scalarThree b1 b2 b3) [b1, b2, b3]
  | four {b1 b2 b3 b4 : Byte} (h : utf8Four b1 b2 b3 b4 = true) : Utf8Row (scalarFour b1 b2 b3 b4) [b1, b2, b3, b4]

theorem inRange_iff {lo hi : Nat} {b : Byte} : inRange lo hi b = true ↔ lo ≤ b.toNat ∧ b.toNat ≤ hi := by
  simp [inRange]

theorem utf8One_iff {b1 : Byte} : utf8One b1 = true ↔ b1.toNat ≤ 0x7F := by
  simp [utf8One, inRange_iff]

theorem utf8Two_iff {b1 b2 : Byte} :
    utf8Two b1 b2 = true ↔ (0xC2 ≤ b1.toNat ∧ b1.toNat ≤ 0xDF) ∧ 0x80 ≤ b2.toNat ∧ b2.toNat ≤ 0xBF := by
  simp only [utf8Two, Bool.and_eq_true, inRange_iff]

/-- The three-byte rows: `E0` leaves out the overlong encodings and `ED` the surrogates. -/
theorem utf8Three_iff {b1 b2 b3 : Byte} :
    utf8Three b1 b2 b3 = true ↔ (0xE0 ≤ b1.toNat ∧ b1.toNat ≤ 0xEF) ∧ (0x80 ≤ b2.toNat ∧ b2.toNat ≤ 0xBF) ∧
      (b1.toNat = 0xE0 → 0xA0 ≤ b2.toNat) ∧ (b1.toNat = 0xED → b2.toNat ≤ 0x9F) ∧
      0x80 ≤ b3.toNat ∧ b3.toNat ≤ 0xBF := by
  simp only [utf8Three, Bool.and_eq_true, Bool.or_eq_true, inRange_iff]
  omega

/-- The four-byte rows: `F0` leaves out the overlong encodings and `F4` what passes U+10FFFF. -/
theorem utf8Four_iff {b1 b2 b3 b4 : Byte} :
    utf8Four b1 b2 b3 b4 = true ↔ (0xF0 ≤ b1.toNat ∧ b1.toNat ≤ 0xF4) ∧ (0x80 ≤ b2.toNat ∧ b2.toNat ≤ 0xBF) ∧
      (b1.toNat = 0xF0 → 0x90 ≤ b2.toNat) ∧ (b1.toNat = 0xF4 → b2.toNat ≤ 0x8F) ∧
      (0x80 ≤ b3.toNat ∧ b3.toNat ≤ 0xBF) ∧ 0x80 ≤ b4.toNat ∧ b4.toNat ≤ 0xBF := by
  simp only [utf8Four, Bool.and_eq_true, Bool.or_eq_true, inRange_iff]
  omega

/-! ### The decoder reads the table -/

/-- The bytes of a row are read as its scalar value, whatever follows: the first bytes tell the rows apart. -/
theorem Utf8Row.textOperand_append {c : Char} {bs : Bytes} (h : Utf8Row c bs) (t : Bytes) :
    textOperand (bs ++ t) = (textOperand t).map (c :: ·) := by
  cases h with
  | one h => exact textOperand_one h
  | two h =>
    have hb := utf8Two_iff.mp h
    exact textOperand_two (by rw [utf8One_iff]; omega) h
  | three h =>
    have hb := utf8Three_iff.mp h
    exact textOperand_three (by rw [utf8One_iff]; omega) (by rw [utf8Two_iff]; omega) h
  | four h =>
    have hb := utf8Four_iff.mp h
    exact textOperand_four (by rw [utf8One_iff]; omega) (by rw [utf8Two_iff]; omega) (by rw [utf8Three_iff]; omega) h

/-- A nonempty payload that reads as a text begins with a row, and the text with its scalar value. -/
theorem exists_utf8Row_of_textOperand {b1 : Byte} {t : Bytes} {text : List Char}
    (h : textOperand (b1 :: t) = some text) :
    ∃ c bs t' u, Utf8Row c bs ∧ b1 :: t = bs ++ t' ∧ textOperand t' = some u ∧ text = c :: u := by
  obtain ⟨hr, u, hu, rfl⟩ | ⟨b2, t', u, rfl, hr, hu, rfl⟩ | ⟨b2, b3, t', u, rfl, hr, hu, rfl⟩ |
    ⟨b2, b3, b4, t', u, rfl, hr, hu, rfl⟩ := textOperand_cons_some h
  · exact ⟨_, _, t, u, .one hr, rfl, hu, rfl⟩
  · exact ⟨_, _, t', u, .two hr, rfl, hu, rfl⟩
  · exact ⟨_, _, t', u, .three hr, rfl, hu, rfl⟩
  · exact ⟨_, _, t', u, .four hr, rfl, hu, rfl⟩

/-! ### The encoder by the size of the scalar value -/

theorem utf8Char_one {c : Char} (h : c.toNat < 0x80) : utf8Char c = [BitVec.ofNat 8 c.toNat] := by
  simp only [utf8Char, if_pos h]

theorem utf8Char_two {c : Char} (h : ¬ c.toNat < 0x80) (h' : c.toNat < 0x800) :
    utf8Char c = [BitVec.ofNat 8 (0xC0 + c.toNat / 64), BitVec.ofNat 8 (0x80 + c.toNat % 64)] := by
  simp only [utf8Char, if_neg h, if_pos h']

theorem utf8Char_three {c : Char} (h : ¬ c.toNat < 0x800) (h' : c.toNat < 0x10000) :
    utf8Char c = [BitVec.ofNat 8 (0xE0 + c.toNat / 4096), BitVec.ofNat 8 (0x80 + c.toNat / 64 % 64),
      BitVec.ofNat 8 (0x80 + c.toNat % 64)] := by
  simp only [utf8Char, if_neg (show ¬ c.toNat < 0x80 by omega), if_neg h, if_pos h']

theorem utf8Char_four {c : Char} (h : ¬ c.toNat < 0x10000) :
    utf8Char c = [BitVec.ofNat 8 (0xF0 + c.toNat / 262144), BitVec.ofNat 8 (0x80 + c.toNat / 4096 % 64),
      BitVec.ofNat 8 (0x80 + c.toNat / 64 % 64), BitVec.ofNat 8 (0x80 + c.toNat % 64)] := by
  simp only [utf8Char, if_neg (show ¬ c.toNat < 0x80 by omega), if_neg (show ¬ c.toNat < 0x800 by omega), if_neg h]

/-! ### The encoder writes the table -/

theorem ofNat_eq_byte {v : Nat} {b : Byte} (h : v = b.toNat) : BitVec.ofNat 8 v = b := by
  rw [h, BitVec.ofNat_toNat, BitVec.setWidth_eq]

theorem toNat_ofNat_byte {v : Nat} (h : v < 256) : (BitVec.ofNat 8 v).toNat = v := by
  rw [BitVec.toNat_ofNat, Nat.mod_eq_of_lt h]

theorem ofNat_eq_char {v : Nat} {c : Char} (h : v = c.toNat) : Char.ofNat v = c := by
  rw [h, Char.ofNat_toNat]

theorem toNat_ofNat_char {v : Nat} (h : v < 0xD800 ∨ (0xDFFF < v ∧ v < 0x110000)) : (Char.ofNat v).toNat = v := by
  rw [Char.toNat_ofNat, if_pos h]

theorem Utf8Row.one_of_toNat {c : Char} {b1 : Byte} (h : utf8One b1 = true) (hc : b1.toNat = c.toNat) :
    Utf8Row c [b1] := ofNat_eq_char hc ▸ .one h

theorem Utf8Row.two_of_toNat {c : Char} {b1 b2 : Byte} (h : utf8Two b1 b2 = true)
    (hc : b1.toNat % 32 * 64 + b2.toNat % 64 = c.toNat) : Utf8Row c [b1, b2] :=
  ofNat_eq_char hc ▸ scalarTwo_eq b1 b2 ▸ .two h

theorem Utf8Row.three_of_toNat {c : Char} {b1 b2 b3 : Byte} (h : utf8Three b1 b2 b3 = true)
    (hc : b1.toNat % 16 * 4096 + b2.toNat % 64 * 64 + b3.toNat % 64 = c.toNat) : Utf8Row c [b1, b2, b3] :=
  ofNat_eq_char hc ▸ scalarThree_eq b1 b2 b3 ▸ .three h

theorem Utf8Row.four_of_toNat {c : Char} {b1 b2 b3 b4 : Byte} (h : utf8Four b1 b2 b3 b4 = true)
    (hc : b1.toNat % 8 * 262144 + b2.toNat % 64 * 4096 + b3.toNat % 64 * 64 + b4.toNat % 64 = c.toNat) :
    Utf8Row c [b1, b2, b3, b4] := ofNat_eq_char hc ▸ scalarFour_eq b1 b2 b3 b4 ▸ .four h

/-- The encoding of a scalar value stands with it in the table: a scalar value is no surrogate and does not pass
U+10FFFF. -/
theorem utf8Row_utf8Char (c : Char) : Utf8Row c (utf8Char c) := by
  have hvalid : c.toNat < 0xD800 ∨ (0xDFFF < c.toNat ∧ c.toNat < 0x110000) := c.valid
  by_cases h1 : c.toNat < 0x80
  · have e1 := toNat_ofNat_byte (v := c.toNat) (by omega)
    rw [utf8Char_one h1]
    exact .one_of_toNat (utf8One_iff.mpr (by omega)) e1
  by_cases h2 : c.toNat < 0x800
  · have e1 := toNat_ofNat_byte (v := 0xC0 + c.toNat / 64) (by omega)
    have e2 := toNat_ofNat_byte (v := 0x80 + c.toNat % 64) (by omega)
    rw [utf8Char_two h1 h2]
    exact .two_of_toNat (utf8Two_iff.mpr (by omega)) (by omega)
  by_cases h3 : c.toNat < 0x10000
  · have e1 := toNat_ofNat_byte (v := 0xE0 + c.toNat / 4096) (by omega)
    have e2 := toNat_ofNat_byte (v := 0x80 + c.toNat / 64 % 64) (by omega)
    have e3 := toNat_ofNat_byte (v := 0x80 + c.toNat % 64) (by omega)
    rw [utf8Char_three h2 h3]
    exact .three_of_toNat (utf8Three_iff.mpr (by omega)) (by omega)
  · have e1 := toNat_ofNat_byte (v := 0xF0 + c.toNat / 262144) (by omega)
    have e2 := toNat_ofNat_byte (v := 0x80 + c.toNat / 4096 % 64) (by omega)
    have e3 := toNat_ofNat_byte (v := 0x80 + c.toNat / 64 % 64) (by omega)
    have e4 := toNat_ofNat_byte (v := 0x80 + c.toNat % 64) (by omega)
    rw [utf8Char_four h3]
    exact .four_of_toNat (utf8Four_iff.mpr (by omega)) (by omega)

/-- The table gives a scalar value one encoding only. -/
theorem Utf8Row.utf8Char_eq {c : Char} {bs : Bytes} (h : Utf8Row c bs) : utf8Char c = bs := by
  cases h with
  | @one b1 h =>
    have hb := utf8One_iff.mp h
    have hv : (Char.ofNat b1.toNat).toNat = b1.toNat := toNat_ofNat_char (by omega)
    rw [utf8Char_one (by omega), ofNat_eq_byte hv]
  | @two b1 b2 h =>
    have hb := utf8Two_iff.mp h
    have hv : (scalarTwo b1 b2).toNat = b1.toNat % 32 * 64 + b2.toNat % 64 := by
      rw [scalarTwo_eq, toNat_ofNat_char (by omega)]
    rw [utf8Char_two (by omega) (by omega), ofNat_eq_byte (b := b1) (by omega), ofNat_eq_byte (b := b2) (by omega)]
  | @three b1 b2 b3 h =>
    have hb := utf8Three_iff.mp h
    have hv : (scalarThree b1 b2 b3).toNat = b1.toNat % 16 * 4096 + b2.toNat % 64 * 64 + b3.toNat % 64 := by
      rw [scalarThree_eq, toNat_ofNat_char (by omega)]
    rw [utf8Char_three (by omega) (by omega), ofNat_eq_byte (b := b1) (by omega), ofNat_eq_byte (b := b2) (by omega),
      ofNat_eq_byte (b := b3) (by omega)]
  | @four b1 b2 b3 b4 h =>
    have hb := utf8Four_iff.mp h
    have hv : (scalarFour b1 b2 b3 b4).toNat =
        b1.toNat % 8 * 262144 + b2.toNat % 64 * 4096 + b3.toNat % 64 * 64 + b4.toNat % 64 := by
      rw [scalarFour_eq, toNat_ofNat_char (by omega)]
    rw [utf8Char_four (by omega), ofNat_eq_byte (b := b1) (by omega), ofNat_eq_byte (b := b2) (by omega),
      ofNat_eq_byte (b := b3) (by omega), ofNat_eq_byte (b := b4) (by omega)]

/-! ### The round trip -/

theorem utf8Encode_cons (c : Char) (text : List Char) : utf8Encode (c :: text) = utf8Char c ++ utf8Encode text :=
  List.flatMap_cons

/-- Settles O51: both directions by induction on the text, its first scalar value in one row of the table. -/
theorem textRoundTrip : Obligations.TextRoundTrip := by
  constructor
  · intro text
    induction text with
    | nil => rfl
    | cons c text ih => rw [utf8Encode_cons, (utf8Row_utf8Char c).textOperand_append, ih, Option.map_some]
  · intro raw text
    induction text generalizing raw with
    | nil =>
      intro h
      cases raw with
      | nil => rfl
      | cons b t =>
        obtain ⟨_, _, _, _, -, -, -, htext⟩ := exists_utf8Row_of_textOperand h
        simp at htext
    | cons c text ih =>
      intro h
      cases raw with
      | nil => simp [textOperand] at h
      | cons b t =>
        obtain ⟨_, bs, t', _, hrow, hraw, htail, ⟨⟩⟩ := exists_utf8Row_of_textOperand h
        rw [hraw, utf8Encode_cons, hrow.utf8Char_eq, ih t' htail]

end Sys2Proof.Machine
end

section
/-! The one rounding of 41_numeric_codec.md R114 to R116, said once for every case of `nearest`: the significand is the
integer nearest the scaled value, at an exponent that gives it 53 significant bits. From this come its nearness and its
tie rule against every binary64, its overflow threshold, and its exactness on the binary64 values. -/

namespace Sys2Proof.Machine

/-! ### Integers and binary64 values -/

/-- An integer within one half of `y` is as near to `y` as every integer, and strictly nearer but for a tie at one half. -/
theorem abs_sub_le_of_near {y : ℚ} {k : Nat} (near : |(k : ℚ) - y| ≤ 1 / 2) (j : Nat) :
    |(k : ℚ) - y| ≤ |(j : ℚ) - y| ∧ (|(k : ℚ) - y| = |(j : ℚ) - y| → k ≠ j → |(k : ℚ) - y| = 1 / 2) := by
  by_cases hjk : k = j
  · exact ⟨(congrArg (fun i : Nat => |(i : ℚ) - y|) hjk).le, fun _ h => absurd hjk h⟩
  · have apart : (1 : ℚ) ≤ |(k : ℚ) - j| := by
      exact_mod_cast Int.one_le_abs (sub_ne_zero.mpr (Int.ofNat_inj.not.mpr hjk))
    have triangle : |(k : ℚ) - j| ≤ |(k : ℚ) - y| + |(j : ℚ) - y| := abs_sub_comm y j ▸ abs_sub_le (k : ℚ) y j
    exact ⟨by linarith, fun _ _ => by linarith⟩

/-- A distance in units of a power of two. -/
theorem abs_mul_two_zpow_sub (a x : ℚ) (e : Int) : |a * 2 ^ e - x| = |a - x / 2 ^ e| * 2 ^ e := by
  have unit : (0 : ℚ) < 2 ^ e := by positivity
  rw [← abs_of_pos unit, ← abs_mul, abs_of_pos unit, sub_mul, div_mul_cancel₀ _ unit.ne']

/-- A significand of at most 53 bits at an exponent of the range has a binary64 of its value: shift it up to 53 bits, or
until the least exponent is reached. -/
theorem exists_binary64Form {m : Nat} {e : Int} (hm : m < 2 ^ 53) (hlo : -1074 ≤ e) (hhi : e ≤ 971) :
    ∃ m' e', binary64Form m' e' ∧ (m' : ℚ) * 2 ^ e' = m * 2 ^ e := by
  induction hd : (e + 1074).toNat generalizing m e with
  | zero => exact ⟨m, e, ⟨hm, hlo, hhi, .inr (by omega)⟩, rfl⟩
  | succ d ih =>
    by_cases hnormal : 2 ^ 52 ≤ m
    · exact ⟨m, e, ⟨hm, hlo, hhi, .inl hnormal⟩, rfl⟩
    · obtain ⟨m', e', form, value⟩ := ih (m := 2 * m) (e := e - 1) (by omega) (by omega) (by omega) (by omega)
      refine ⟨m', e', form, value.trans ?_⟩
      rw [zpow_sub_one₀ two_ne_zero]
      push_cast
      ring

/-- Half a unit past the largest finite binary64, in the form of the statement of R115. -/
def overflowThreshold : ℚ := (2 ^ 54 - 1) * 2 ^ (970 : Int)

theorem overflowThreshold_le_div_iff (num : Nat) {den : Nat} (hd : 0 < den) :
    overflowThreshold ≤ num / den ↔ (2 ^ 54 - 1) * 2 ^ 970 * den ≤ num := by
  rw [overflowThreshold, le_div_iff₀ (by exact_mod_cast hd), show (970 : Int) = (970 : Nat) from rfl, zpow_natCast,
    ← Nat.cast_le (α := ℚ)]
  norm_num only [Nat.cast_mul, Nat.cast_pow, Nat.cast_ofNat]

/-- Every binary64 lies below half a unit past the largest finite one. -/
theorem binary64Form.value_lt {m : Nat} {e : Int} (h : binary64Form m e) :
    (m : ℚ) * 2 ^ e < overflowThreshold := by
  obtain ⟨hm, -, hhi, -⟩ := h
  have hm' : (m : ℚ) ≤ 2 ^ 53 - 1 := by
    have : m + 1 ≤ 2 ^ 53 := hm
    have : (m : ℚ) + 1 ≤ 2 ^ 53 := by exact_mod_cast this
    linarith
  have unit : (0 : ℚ) < 2 ^ (970 : Int) := by positivity
  calc (m : ℚ) * 2 ^ e ≤ (2 ^ 53 - 1) * 2 ^ (970 + 1 : Int) :=
        mul_le_mul hm' (zpow_le_zpow_right₀ one_le_two hhi) (by positivity) (by norm_num)
    _ = (2 ^ 54 - 2) * 2 ^ (970 : Int) := by rw [zpow_add_one₀ two_ne_zero]; ring
    _ < _ := mul_lt_mul_of_pos_right (by norm_num) unit

/-! ### The significand and the exponent of a rounding -/

/-- `k` is the significand and `e` the exponent to which the rounding takes `x`, before the carry into `2^53` and the
overflow are dealt with. -/
structure RoundsTo (x : ℚ) (k : Nat) (e : Int) : Prop where
  least : -1074 ≤ e
  scaled_lt : x / 2 ^ e < 2 ^ 53
  normal : (2 : ℚ) ^ 52 ≤ x / 2 ^ e ∨ e = -1074
  near : |(k : ℚ) - x / 2 ^ e| ≤ 1 / 2
  even : |(k : ℚ) - x / 2 ^ e| = 1 / 2 → k % 2 = 0

namespace RoundsTo

variable {x : ℚ} {k : Nat} {e : Int}

theorem le_carry (h : RoundsTo x k e) : k ≤ 2 ^ 53 := by
  have hk : (k : ℚ) < (2 ^ 53 + 1 : Nat) := by
    push_cast
    linarith [(abs_le.mp h.near).2, h.scaled_lt]
  exact Nat.lt_succ_iff.mp (Nat.cast_lt.mp hk)

theorem significand_normal (h : RoundsTo x k e) : 2 ^ 52 ≤ k ∨ e = -1074 := by
  refine h.normal.imp_left fun hy => ?_
  have hk : ((2 ^ 52 : Nat) : ℚ) < (k + 1 : Nat) := by
    push_cast
    linarith [(abs_le.mp h.near).1]
  exact Nat.lt_succ_iff.mp (Nat.cast_lt.mp hk)

theorem form (h : RoundsTo x k e) (hk : k ≠ 2 ^ 53) (he : e ≤ 971) : binary64Form k e :=
  ⟨lt_of_le_of_ne h.le_carry hk, h.least, he, h.significand_normal⟩

/-- The rounded value past a carry into `2^53`, which is an even significand one exponent up. -/
theorem carry_form (h : RoundsTo x (2 ^ 53) e) (he : e + 1 ≤ 971) : binary64Form (2 ^ 52) (e + 1) :=
  ⟨by norm_num, by linarith [h.least], he, .inl le_rfl⟩

/-- Among the values of one exponent or a greater one the comparison is one of integers. -/
theorem nearest_of_le (h : RoundsTo x k e) (m' : Nat) {e' : Int} (he : e ≤ e') :
    |(k : ℚ) - x / 2 ^ e| ≤ |(m' : ℚ) * 2 ^ (e' - e) - x / 2 ^ e| ∧
      (|(k : ℚ) - x / 2 ^ e| = |(m' : ℚ) * 2 ^ (e' - e) - x / 2 ^ e| → (k : ℚ) ≠ m' * 2 ^ (e' - e) → k % 2 = 0) := by
  obtain ⟨d, hd⟩ := Int.eq_ofNat_of_zero_le (sub_nonneg.mpr he)
  have hj : (m' : ℚ) * 2 ^ (e' - e) = (m' * 2 ^ d : Nat) := by
    rw [hd]
    push_cast
    rw [zpow_natCast]
  rw [hj]
  obtain ⟨hle, htie⟩ := abs_sub_le_of_near h.near (m' * 2 ^ d)
  exact ⟨hle, fun heq hne => h.even (htie heq (Nat.cast_injective.ne_iff.mp hne))⟩

/-- A binary64 of a smaller exponent lies below `2^52` units, and so does not come as near. -/
theorem nearest_of_lt (h : RoundsTo x k e) {m' : Nat} {e' : Int} (form : binary64Form m' e') (he : e' < e) :
    |(k : ℚ) - x / 2 ^ e| < |(m' : ℚ) * 2 ^ (e' - e) - x / 2 ^ e| := by
  obtain ⟨hm, hlo, -, -⟩ := form
  have hy := h.normal.resolve_right (by omega)
  have hz : (m' : ℚ) * 2 ^ (e' - e) < 2 ^ 52 :=
    calc (m' : ℚ) * 2 ^ (e' - e) ≤ m' * 2 ^ (-1 : Int) := by
          gcongr
          · exact one_le_two
          · omega
      _ < 2 ^ 53 * 2 ^ (-1 : Int) := by gcongr; exact_mod_cast hm
      _ = 2 ^ 52 := by norm_num
  calc |(k : ℚ) - x / 2 ^ e| ≤ |((2 ^ 52 : Nat) : ℚ) - x / 2 ^ e| := (abs_sub_le_of_near h.near _).1
    _ = x / 2 ^ e - 2 ^ 52 := by
      rw [abs_sub_comm, abs_of_nonneg] <;> push_cast
      · rfl
      · linarith
    _ < x / 2 ^ e - m' * 2 ^ (e' - e) := by linarith
    _ ≤ _ := by rw [abs_sub_comm]; exact le_abs_self _

/-- No binary64 lies nearer to `x`, and at a tie the significand is even. -/
theorem nearest_value (h : RoundsTo x k e) {m' : Nat} {e' : Int} (form : binary64Form m' e') :
    |(k : ℚ) * 2 ^ e - x| ≤ |(m' : ℚ) * 2 ^ e' - x| ∧
      (|(k : ℚ) * 2 ^ e - x| = |(m' : ℚ) * 2 ^ e' - x| → (k : ℚ) * 2 ^ e ≠ m' * 2 ^ e' → k % 2 = 0) := by
  have unit : (0 : ℚ) < 2 ^ e := by positivity
  have hm : (m' : ℚ) * 2 ^ e' = m' * 2 ^ (e' - e) * 2 ^ e := by
    rw [mul_assoc, ← zpow_add₀ two_ne_zero, sub_add_cancel]
  rw [hm, abs_mul_two_zpow_sub, abs_mul_two_zpow_sub, mul_le_mul_iff_left₀ unit, mul_left_inj' unit.ne', ne_eq,
    mul_left_inj' unit.ne']
  rcases le_or_gt e e' with he | he
  · exact h.nearest_of_le m' he
  · have hlt := h.nearest_of_lt form he
    exact ⟨hlt.le, fun heq => absurd heq hlt.ne⟩

theorem half_le_of_carry (h : RoundsTo x k e) (hk : k = 2 ^ 53) : (2 ^ 53 - 1 / 2 : ℚ) ≤ x / 2 ^ e := by
  have near := (abs_le.mp h.near).2
  rw [hk] at near
  push_cast at near
  linarith

/-- Half a unit below `2^53` the tie goes to it, the even one of the two significands. -/
theorem carry_of_half_le (h : RoundsTo x k e) (hy : (2 ^ 53 - 1 / 2 : ℚ) ≤ x / 2 ^ e) : k = 2 ^ 53 := by
  by_contra hk
  have hk' : k + 1 ≤ 2 ^ 53 := lt_of_le_of_ne h.le_carry hk
  have below : (k : ℚ) + 1 ≤ 2 ^ 53 := by exact_mod_cast hk'
  have near := (abs_le.mp h.near).1
  have tie : (k : ℚ) - x / 2 ^ e = -(1 / 2) := by linarith
  have even := h.even (by rw [tie]; norm_num)
  have last : ((k + 1 : Nat) : ℚ) = (2 ^ 53 : Nat) := by
    push_cast
    linarith
  have : k + 1 = 2 ^ 53 := Nat.cast_injective last
  omega

/-- The rounding passes the largest finite binary64 from half a unit past it on: a greater exponent, or a carry at
the greatest one. -/
theorem overflow_iff (h : RoundsTo x k e) :
    971 < e ∨ (e = 971 ∧ k = 2 ^ 53) ↔ overflowThreshold ≤ x := by
  have unit : (0 : ℚ) < 2 ^ (970 : Int) := by positivity
  have two_pow_mono : ∀ {a b : Int}, a ≤ b → (2 : ℚ) ^ a ≤ 2 ^ b := zpow_le_zpow_right₀ one_le_two
  have hx : x / 2 ^ e * 2 ^ e = x := div_mul_cancel₀ _ (by positivity)
  rcases lt_trichotomy e 971 with he | rfl | he
  · have : x < overflowThreshold :=
      calc x = x / 2 ^ e * 2 ^ e := hx.symm
        _ < 2 ^ 53 * 2 ^ e := by gcongr; exact h.scaled_lt
        _ ≤ 2 ^ 53 * 2 ^ (970 : Int) := mul_le_mul_of_nonneg_left (two_pow_mono (by omega)) (by norm_num)
        _ ≤ _ := mul_le_mul_of_nonneg_right (by norm_num) unit.le
    exact iff_of_false (by omega) this.not_ge
  · have hhalf : overflowThreshold ≤ x ↔ (2 ^ 53 - 1 / 2 : ℚ) ≤ x / 2 ^ (971 : Int) := by
      rw [overflowThreshold, le_div_iff₀ (by positivity), show (971 : Int) = 970 + 1 from rfl, zpow_add_one₀ two_ne_zero]
      exact iff_of_eq (congrArg (· ≤ x) (by ring))
    rw [hhalf]
    exact ⟨fun hk => h.half_le_of_carry (by omega), fun hy => .inr ⟨rfl, h.carry_of_half_le hy⟩⟩
  · have : overflowThreshold ≤ x :=
      calc overflowThreshold ≤ 2 ^ 52 * 2 ^ (970 + 2 : Int) := by
            rw [overflowThreshold, zpow_add₀ two_ne_zero, show (2 : ℚ) ^ (2 : Int) = 4 by norm_num]
            generalize (2 : ℚ) ^ (970 : Int) = u at unit ⊢
            linarith
        _ ≤ 2 ^ 52 * 2 ^ e := mul_le_mul_of_nonneg_left (two_pow_mono (by omega)) (by norm_num)
        _ ≤ x / 2 ^ e * 2 ^ e := by gcongr; exact h.normal.resolve_right (by omega)
        _ = x := hx
    exact iff_of_true (.inl he) this

end RoundsTo

/-! ### The cases of `nearest` -/

/-- The rounding of a positive fraction, by the laws of its two parts. -/
theorem roundsTo_of_pos {num den : Nat} (hn : 0 < num) (hd : 0 < den) :
    RoundsTo (num / den)
      (roundHalfEven (num * 2 ^ (-roundingExponent num den).toNat) (den * 2 ^ (roundingExponent num den).toNat))
      (roundingExponent num den) := by
  obtain ⟨least, scaled_lt, normal⟩ := roundingExponent_spec hn hd
  generalize roundingExponent num den = e at *
  have hspec := roundHalfEven_spec (num := num * 2 ^ (-e).toNat) (show 0 < den * 2 ^ e.toNat by positivity)
  rw [scaled_ratio] at hspec
  exact ⟨least, scaled_lt, normal, hspec.1, hspec.2⟩

/-- What `nearest` answers: an infinity past the range, the carry one exponent up, or the significand as it is. -/
theorem nearest_cases (neg : Bool) (num : Nat) {den : Nat} (hd : 0 < den) :
    ∃ k e, RoundsTo (num / den) k e ∧
      (((971 < e ∨ (e = 971 ∧ k = 2 ^ 53)) ∧ nearest neg num den = .inf neg) ∨
        (k = 2 ^ 53 ∧ e + 1 ≤ 971 ∧ nearest neg num den = .fin neg (2 ^ 52) (e + 1)) ∨
        (k ≠ 2 ^ 53 ∧ e ≤ 971 ∧ nearest neg num den = .fin neg k e)) := by
  rcases Nat.eq_zero_or_pos num with rfl | hn
  · exact ⟨0, -1074, ⟨le_rfl, by simp, .inr rfl, by simp, by simp⟩, .inr (.inr ⟨by decide, by decide, rfl⟩)⟩
  · refine ⟨_, _, roundsTo_of_pos hn hd, ?_⟩
    unfold nearest
    rw [if_neg hn.ne']
    dsimp only
    generalize roundingExponent num den = e
    generalize roundHalfEven _ _ = k
    split
    · split
      · exact .inl ⟨by omega, rfl⟩
      · exact .inr (.inl ⟨‹_›, by omega, rfl⟩)
    · split
      · exact .inl ⟨.inl ‹_›, rfl⟩
      · exact .inr (.inr ⟨‹_›, by omega, rfl⟩)

/-- A finite result has the sign asked for and the form of a binary64; its value is that of the rounded significand, and
it is even where that one is. -/
theorem nearest_eq_fin {neg n : Bool} {num den m : Nat} {e : Int} (hd : 0 < den) (h : nearest neg num den = .fin n m e) :
    n = neg ∧ binary64Form m e ∧
      ∃ k f, RoundsTo (num / den) k f ∧ (m : ℚ) * 2 ^ e = k * 2 ^ f ∧ (k % 2 = 0 → m % 2 = 0) := by
  obtain ⟨k, f, hr, ⟨-, heq⟩ | ⟨rfl, hf, heq⟩ | ⟨hk, hf, heq⟩⟩ := nearest_cases neg num hd
  · simp [h] at heq
  · obtain ⟨rfl, rfl, rfl⟩ := Datum.fin.inj (h.symm.trans heq)
    refine ⟨rfl, hr.carry_form hf, _, f, hr, ?_, fun _ => by norm_num⟩
    rw [zpow_add_one₀ two_ne_zero]
    push_cast
    ring
  · obtain ⟨rfl, rfl, rfl⟩ := Datum.fin.inj (h.symm.trans heq)
    exact ⟨rfl, hr.form hk hf, _, _, hr, rfl, id⟩

/-- Settles O43: the rounded significand is the nearest integer at its exponent, and no binary64 of a smaller exponent
reaches that far. -/
theorem roundingIsToNearestEven : Obligations.RoundingIsToNearestEven := by
  intro neg num den hd n m e h
  obtain ⟨hn, form, k, f, hr, value, even⟩ := nearest_eq_fin hd h
  refine ⟨hn, form, fun m' e' form' => ?_⟩
  obtain ⟨hle, htie⟩ := hr.nearest_value form'
  rw [value]
  exact ⟨hle, fun heq hne => even (htie heq hne)⟩

/-- The rounding gives an infinity from half a unit past the largest finite binary64 on, and a finite datum before. -/
theorem nearest_overflow (neg : Bool) (num : Nat) {den : Nat} (hd : 0 < den) :
    (overflowThreshold ≤ num / den ∧ nearest neg num den = .inf neg) ∨
      ((num / den : ℚ) < overflowThreshold ∧ ∃ m e, nearest neg num den = .fin neg m e) := by
  obtain ⟨k, e, hr, ⟨hover, heq⟩ | ⟨-, he, heq⟩ | ⟨hk, he, heq⟩⟩ := nearest_cases neg num hd
  · exact .inl ⟨hr.overflow_iff.mp hover, heq⟩
  · exact .inr ⟨not_le.mp (mt hr.overflow_iff.mpr (by omega)), _, _, heq⟩
  · exact .inr ⟨not_le.mp (mt hr.overflow_iff.mpr (by omega)), _, _, heq⟩

/-- Settles O44: by the two cases of `nearest_overflow`, its threshold cleared of the denominator. -/
theorem roundingOverflowsToInfinity : Obligations.RoundingOverflowsToInfinity := by
  intro neg num den hd
  rw [← not_le, ← overflowThreshold_le_div_iff num hd, not_le]
  rcases nearest_overflow neg num hd with ⟨hle, heq⟩ | ⟨hlt, m, e, heq⟩
  · exact ⟨iff_of_true heq hle, fun hlt => absurd hle hlt.not_ge⟩
  · exact ⟨iff_of_false (by simp [heq]) hlt.not_ge, fun _ => ⟨m, e, heq⟩⟩

/-! ### Exact values -/

/-- A fraction that is the value of a binary64 is rounded to that value. -/
theorem nearest_exact (neg : Bool) {num den m' : Nat} {e' : Int} (hd : 0 < den) (form : binary64Form m' e')
    (value : (m' : ℚ) * 2 ^ e' = num / den) : ∃ m e, nearest neg num den = .fin neg m e ∧ (m : ℚ) * 2 ^ e = num / den := by
  rcases nearest_overflow neg num hd with ⟨hle, -⟩ | ⟨-, m, e, heq⟩
  · exact absurd form.value_lt (value ▸ hle.not_gt)
  · obtain ⟨-, -, near⟩ := roundingIsToNearestEven neg num den hd neg m e heq
    have hle := (near m' e' form).1
    rw [value, sub_self, abs_zero] at hle
    exact ⟨m, e, heq, sub_eq_zero.mp (abs_nonpos_iff.mp hle)⟩

theorem intToF64_zero : intToF64 0 = .fin false 0 (-1074) := rfl

/-- Every natural number up to `2^53` is a binary64 value. -/
theorem exists_binary64Form_nat {m : Nat} (hm : m ≤ 2 ^ 53) : ∃ m' e', binary64Form m' e' ∧ (m' : ℚ) * 2 ^ e' = m := by
  rcases hm.lt_or_eq with hlt | rfl
  · simpa using exists_binary64Form (e := 0) hlt (by norm_num) (by norm_num)
  · exact ⟨2 ^ 52, 1, ⟨by norm_num, by norm_num, by norm_num, .inl le_rfl⟩, by norm_num⟩

/-- Settles O42: the magnitude is a binary64 value, so the rounding keeps it, and the sign is the integer's own. -/
theorem integerConversionIsExact : Obligations.IntegerConversionIsExact := by
  refine ⟨fun i hi => ?_, intToF64_zero⟩
  obtain ⟨m', e', form, value⟩ := exists_binary64Form_nat hi
  obtain ⟨m, e, heq, hmag⟩ : ∃ m e, intToF64 i = .fin (decide (i < 0)) m e ∧ (m : ℚ) * 2 ^ e = i.natAbs := by
    simpa only [intToF64, Nat.cast_one, div_one] using
      nearest_exact (decide (i < 0)) (num := i.natAbs) one_pos form (by rw [value, Nat.cast_one, div_one])
  refine ⟨_, m, e, heq, ?_⟩
  rw [heq, Datum.value, mul_assoc, hmag, Nat.cast_natAbs]
  rcases lt_or_ge i 0 with hneg | hpos
  · simp [hneg, abs_of_neg hneg]
  · simp [hpos.not_gt, abs_of_nonneg hpos]

end Sys2Proof.Machine
end

section
/-! The encodings of binary64 data (41_numeric_codec.md R120): a 64-bit word is its sign, its exponent field and its
fraction, the model's encoders write such words, and `datum64` reads them. -/

namespace Sys2Proof.Machine

/-! ### Words by their fields -/

/-- The 64-bit word with sign `neg`, exponent field `E` and fraction `f` (R120). -/
def wordOfFields (neg : Bool) (E f : Nat) : BitVec 64 := BitVec.ofNat 64 (signBit neg + E * 2 ^ 52 + f)

theorem signBit_false : signBit false = 0 := rfl

theorem signBit_true : signBit true = 2 ^ 63 := rfl

theorem signBit_cases (neg : Bool) : signBit neg = 0 ∨ signBit neg = 2 ^ 63 := by
  cases neg
  · exact .inl signBit_false
  · exact .inr signBit_true

theorem toNat_wordOfFields {neg : Bool} {E f : Nat} (hE : E < 2 ^ 11) (hf : f < 2 ^ 52) :
    (wordOfFields neg E f).toNat = signBit neg + E * 2 ^ 52 + f := by
  rw [wordOfFields, BitVec.toNat_ofNat, Nat.mod_eq_of_lt]
  have := signBit_cases neg
  omega

/-- Every word has its three fields. -/
theorem exists_wordOfFields (b : BitVec 64) : ∃ neg E f, E < 2 ^ 11 ∧ f < 2 ^ 52 ∧ b = wordOfFields neg E f := by
  have hb := b.isLt
  refine ⟨decide (b.toNat / 2 ^ 63 = 1), b.toNat / 2 ^ 52 % 2 ^ 11, b.toNat % 2 ^ 52, by omega, by omega, ?_⟩
  refine BitVec.eq_of_toNat_eq ?_
  rw [toNat_wordOfFields (by omega) (by omega), signBit]
  split
  · have := of_decide_eq_true ‹_›
    omega
  · have := of_decide_eq_false (eq_false_of_ne_true ‹_›)
    omega

section fields

variable {neg : Bool} {E f : Nat} (hE : E < 2 ^ 11) (hf : f < 2 ^ 52)
include hE hf

theorem exponentField_wordOfFields : (wordOfFields neg E f).toNat / 2 ^ 52 % 2 ^ 11 = E := by
  rw [toNat_wordOfFields hE hf]
  have := signBit_cases neg
  omega

theorem fraction_wordOfFields : (wordOfFields neg E f).toNat % 2 ^ 52 = f := by
  rw [toNat_wordOfFields hE hf]
  have := signBit_cases neg
  omega

theorem sign_wordOfFields : decide ((wordOfFields neg E f).toNat / 2 ^ 63 % 2 = 1) = neg := by
  rw [toNat_wordOfFields hE hf]
  cases neg
  · exact decide_eq_false (by rw [signBit_false]; omega)
  · exact decide_eq_true (by rw [signBit_true]; omega)

theorem datum64_wordOfFields :
    datum64 (wordOfFields neg E f).toNat =
      if E = 2047 then (if f = 0 then .inf neg else .nan)
      else if E = 0 then .fin neg f (-1074)
      else .fin neg (2 ^ 52 + f) (E - 1075) := by
  simp only [datum64, datumOfFields, exponentField_wordOfFields hE hf, fraction_wordOfFields hE hf,
    sign_wordOfFields hE hf, Nat.reduceAdd]
  rw [show (E : Int) - 1023 - (52 : Nat) = E - 1075 by push_cast; ring]
  rfl

theorem isNan64_wordOfFields : isNan64 (wordOfFields neg E f) ↔ E = 2047 ∧ f ≠ 0 := by
  rw [isNan64, exponentField_wordOfFields hE hf, fraction_wordOfFields hE hf]

end fields

/-! ### The encoders -/

theorem infBits_eq (neg : Bool) : infBits neg = wordOfFields neg 2047 0 := rfl

theorem nanBits_eq (d : NanDraw) : nanBits d = wordOfFields d.neg 2047 (d.fractionPred.val + 1) := rfl

theorem finBits_subnormal (neg : Bool) {m : Nat} (hm : m < 2 ^ 52) (e : Int) : finBits neg m e = wordOfFields neg 0 m := by
  rw [finBits, if_pos hm, wordOfFields, Nat.zero_mul, Nat.add_zero]

theorem finBits_normal (neg : Bool) {m : Nat} (hm : 2 ^ 52 ≤ m) (e : Int) :
    finBits neg m e = wordOfFields neg (e + 1075).toNat (m - 2 ^ 52) := by
  rw [finBits, if_neg (by omega), wordOfFields, Nat.add_assoc]

/-- Settles O48: a NaN is a word with exponent field 2047 and a fraction other than 0, and the draw is its sign and that
fraction less one. -/
theorem everyNanIsAPossibleDraw : Obligations.EveryNanIsAPossibleDraw := by
  intro b
  constructor
  · obtain ⟨neg, E, f, hE, hf, rfl⟩ := exists_wordOfFields b
    rw [isNan64_wordOfFields hE hf]
    rintro ⟨rfl, hf0⟩
    refine ⟨⟨neg, f - 1, by omega⟩, ?_⟩
    rw [nanBits_eq, Nat.sub_add_cancel (Nat.pos_of_ne_zero hf0)]
  · rintro ⟨d, rfl⟩
    have hlt := d.fractionPred.isLt
    rw [nanBits_eq, isNan64_wordOfFields (by norm_num) (by omega)]
    exact ⟨rfl, Nat.succ_ne_zero _⟩

/-! ### Reading back -/

theorem datum64_infBits (neg : Bool) : datum64 (infBits neg).toNat = .inf neg := by
  rw [infBits_eq, datum64_wordOfFields (by norm_num) (by norm_num)]
  rfl

theorem datum64_finBits (neg : Bool) {m : Nat} {e : Int} (h : binary64Form m e) :
    datum64 (finBits neg m e).toNat = .fin neg m e := by
  obtain ⟨hm, hlo, hhi, hnormal⟩ := h
  by_cases hsub : m < 2 ^ 52
  · obtain rfl := hnormal.resolve_left (by omega)
    rw [finBits_subnormal neg hsub, datum64_wordOfFields (by norm_num) hsub]
    rfl
  · have he : (((e + 1075).toNat : Nat) : Int) - 1075 = e := by omega
    rw [finBits_normal neg (by omega), datum64_wordOfFields (by omega) (by omega), if_neg (by omega),
      if_neg (by omega), he, Nat.add_sub_cancel' (by omega)]

/-- A word that reads as a finite datum has exponent field 0, a subnormal, or one from 1 to 2046. -/
theorem finBits_of_datum64 {b : BitVec 64} {neg : Bool} {m : Nat} {e : Int} (h : datum64 b.toNat = .fin neg m e) :
    binary64Form m e ∧ finBits neg m e = b := by
  obtain ⟨s, E, f, hE, hf, rfl⟩ := exists_wordOfFields b
  rw [datum64_wordOfFields hE hf] at h
  split at h
  · split at h <;> cases h
  split at h
  · obtain ⟨rfl, rfl, rfl⟩ := Datum.fin.inj h
    rw [finBits_subnormal _ hf, ‹E = 0›]
    exact ⟨⟨by omega, by norm_num, by norm_num, .inr rfl⟩, rfl⟩
  · obtain ⟨rfl, rfl, rfl⟩ := Datum.fin.inj h
    rw [finBits_normal _ (by omega), sub_add_cancel, Int.toNat_natCast, Nat.add_sub_cancel_left]
    exact ⟨⟨by omega, by omega, by omega, .inl (by omega)⟩, rfl⟩

/-- Settles O49: each direction by the fields of the word. -/
theorem storedNumbersReadBack : Obligations.StoredNumbersReadBack :=
  ⟨fun neg _ _ => datum64_finBits neg, fun _ _ _ _ => finBits_of_datum64, datum64_infBits⟩

/-! ### Widening -/

/-- The range of a finite datum of any format: at most one bit more than the fraction, and an exponent between that of
the subnormals and that of the greatest exponent field but one. -/
theorem datumOfFields_fin_range {p w : Nat} {bias : Int} {enc m : Nat} {neg : Bool} {e : Int}
    (h : datumOfFields p w bias enc = .fin neg m e) :
    m < 2 ^ (p + 1) ∧ 1 - bias - p ≤ e ∧ (e ≤ 1 - bias - p ∨ e ≤ 2 ^ w - 2 - bias - p) := by
  have hf : enc % 2 ^ p < 2 ^ p := Nat.mod_lt _ (by positivity)
  have hE : ((enc / 2 ^ p % 2 ^ w : Nat) : Int) < 2 ^ w := by exact_mod_cast Nat.mod_lt _ (by positivity)
  have hmax : ((2 ^ w - 1 : Nat) : Int) = 2 ^ w - 1 := by
    rw [Nat.cast_sub Nat.one_le_two_pow]
    push_cast
    rfl
  unfold datumOfFields at h
  dsimp only at h
  rw [pow_succ]
  generalize enc / 2 ^ p % 2 ^ w = E at *
  split at h
  · split at h <;> cases h
  split at h
  · obtain ⟨-, rfl, rfl⟩ := Datum.fin.inj h
    exact ⟨by omega, le_rfl, .inl le_rfl⟩
  · obtain ⟨-, rfl, rfl⟩ := Datum.fin.inj h
    exact ⟨by omega, by omega, .inr (by omega)⟩

/-- Settles O50: both formats lie within 53 bits and the exponents of binary64, where every value is a binary64's. -/
theorem wideningIsExact : Obligations.WideningIsExact := by
  rintro enc neg m e (h | h)
  · obtain ⟨hm, hlo, hhi⟩ := datumOfFields_fin_range h
    exact exists_binary64Form (by omega) (by omega) (by omega)
  · obtain ⟨hm, hlo, hhi⟩ := datumOfFields_fin_range h
    exact exists_binary64Form (by omega) (by omega) (by omega)

end Sys2Proof.Machine
end

section
/-! `ROUND_DEC` and the scaling pipeline (41_numeric_codec.md R116, R117): the decimal integer as a rational, infinities
and zeros under a well-formed registry (42_registry.md R143), and the source's worked value (R133). -/

namespace Sys2Proof.Machine

/-! ### The decimal integer -/

/-- A power of either sign as the quotient of two natural powers, as `decimalInteger` writes it. -/
theorem pow_toNat_div {b : ℚ} (hb : b ≠ 0) (z : Int) : b ^ z.toNat / b ^ (-z).toNat = b ^ z := by
  rw [← zpow_natCast, ← zpow_natCast, ← zpow_sub₀ hb, Int.toNat_sub_toNat_neg]

theorem decimalInteger_ratio (m : Nat) (e n : Int) :
    ((m * 2 ^ e.toNat * 10 ^ n.toNat : Nat) : ℚ) / (2 ^ (-e).toNat * 10 ^ (-n).toNat : Nat) = m * 2 ^ e * 10 ^ n := by
  rw [← pow_toNat_div two_ne_zero e, ← pow_toNat_div (by norm_num : (10 : ℚ) ≠ 0) n]
  push_cast
  field_simp

/-- Settles O45: the law of `roundHalfEven` at the exact value `x * 10^n`. -/
theorem roundDecPicksTheNearestDecimal : Obligations.RoundDecPicksTheNearestDecimal := by
  intro m e n
  rw [← decimalInteger_ratio]
  exact roundHalfEven_spec (by positivity)

/-! ### Infinities and zeros -/

theorem lookup_mem {r : Registry} {id : Byte} {e : Entry} (h : lookup r id = some e) : e ∈ r := List.mem_of_find?_eq_some h

@[simp] theorem nearest_zero (neg : Bool) (den : Nat) : nearest neg 0 den = .fin neg 0 (-1074) := rfl

@[simp] theorem roundHalfEven_zero (den : Nat) : roundHalfEven 0 den = 0 := by
  simp [roundHalfEven]

@[simp] theorem decimalInteger_zero (e n : Int) : decimalInteger 0 e n = 0 := by
  simp [decimalInteger]

@[simp] theorem roundDec_inf (neg : Bool) (n : Int) : roundDec (.inf neg) n = .datum (.inf neg) := rfl

/-- `ROUND_DEC` of a zero is the zero of that sign (R116). -/
@[simp] theorem roundDec_zero (neg : Bool) (e n : Int) : roundDec (.fin neg 0 e) n = .datum (.fin neg 0 (-1074)) := by
  simp [roundDec]

/-- An infinity times a positive finite number is that infinity (R115, R123). -/
theorem f64Mul_inf_pos (neg : Bool) {m : Nat} (hm : 0 < m) (x : Int) : f64Mul (.inf neg) (.fin false m x) = .inf neg := by
  simp [f64Mul, hm.ne']

/-- A zero times a finite number that is not negative is a zero of its own sign (R115, R122). -/
theorem f64Mul_zero_pos (neg : Bool) (m : Nat) (e x : Int) :
    f64Mul (.fin neg 0 e) (.fin false m x) = .fin neg 0 (-1074) := by
  simp [f64Mul]

theorem leNat_replicate_zero (n : Nat) : leNat (List.replicate n 0) = 0 := by
  induction n with
  | zero => rfl
  | succ n ih => rw [List.replicate_succ, leNat_cons, ih]; rfl

/-- Settles O47: the entry's factor is a finite number greater than 0. -/
theorem wellFormedRegistryKeepsInfinityAndZero : Obligations.WellFormedRegistryKeepsInfinityAndZero := by
  intro r id e hr hlookup
  obtain ⟨⟨m, x, hfactor, hm⟩, -⟩ := hr.2 e (lookup_mem hlookup)
  refine ⟨fun neg => ?_, fun n => ?_⟩
  · rw [scale, hfactor, f64Mul_inf_pos neg hm, roundDec_inf]
  · rw [leNat_replicate_zero, Nat.cast_zero, intToF64_zero, scale, hfactor, f64Mul_zero_pos, roundDec_zero]

/-! ### The worked value -/

/-- The product of R133 before `ROUND_DEC`, rounded to the significand of 25. -/
theorem f64Mul_workedValue :
    f64Mul (intToF64 2500) (datum64 0x3F847AE147AE147B) = .fin false (25 * 2 ^ 48) (-48) := by decide +kernel

/-- Two decimals keep the 25.0. -/
theorem roundDec_workedValue :
    roundDec (.fin false (25 * 2 ^ 48) (-48)) 2 = .datum (.fin false (25 * 2 ^ 48) (-48)) := by decide +kernel

/-- Settles O46: 2500 is converted exactly, and the product and its rounding are computed. -/
theorem workedValueIsTwentyFive : Obligations.WorkedValueIsTwentyFive := by
  refine ⟨?_, ?_, false, 25 * 2 ^ 48, -48, ?_, by decide +kernel⟩
  · obtain ⟨_, _, _, -, value⟩ := integerConversionIsExact.1 2500 (by norm_num)
    exact_mod_cast value
  · rw [f64Mul_workedValue, Datum.value]
    norm_num
  · exact (congrArg (roundDec · 2) f64Mul_workedValue).trans roundDec_workedValue

end Sys2Proof.Machine
end

section
/-! The stops of the scan loop (43_tlv_records.md R152, R153), the complete record it runs, and the bound on the steps
of a scan (R157). -/

namespace Sys2Proof.Machine

/-! ### One pass of the loop -/

theorem step_scan_clean {s : State} (hp : s.phase = .scan) (hend : s.plen - s.offset < 2) :
    step s = .next s.finishScan :=
  step_scan_answer hp (fetchRecord_clean hend)

theorem step_scan_truncated {s : State} (hp : s.phase = .scan) (hmore : 2 ≤ s.plen - s.offset)
    (htrunc : s.plen < s.offset + 2 + (s.pbuf.read s.offset).toNat % 32) :
    step s = .next (s.stopTruncated (s.pbuf.read s.offset) (s.pbuf.read (s.offset + 1))) :=
  step_scan_answer hp (fetchRecord_truncated hmore (by rwa [ctrlDlen_toNat]))

/-- A complete record at the cursor is fetched as a well-formed record of the length its control byte declares. -/
theorem fetchRecord_runs {s : State} (hmore : 2 ≤ s.plen - s.offset)
    (hin : s.offset + 2 + (s.pbuf.read s.offset).toNat % 32 ≤ s.plen) :
    ∃ i, i.isRecord = true ∧ i.wf = true ∧ s.fetchRecord = .run i ∧
      (recordBytes i).length = 2 + (s.pbuf.read s.offset).toNat % 32 := by
  rw [← ctrlDlen_toNat] at hin ⊢
  obtain ⟨row, hrow⟩ := recordRow_total (s.pbuf.read s.offset)
  have hlen := Memory.span_length s.pbuf (s.offset + 2) (ctrlDlen (s.pbuf.read s.offset)).toNat
  exact ⟨_, rowInstr_isRecord .., rowInstr_wf hrow hlen, fetchRecord_complete hmore hin hrow,
    recordBytes_rowInstr_length hrow hlen⟩

/-- Settles O5: the clean end of the loop. -/
theorem scanStopsCleanly : Obligations.ScanStopsCleanly := fun _ hp hend => step_scan_clean hp hend

/-- Settles O6: the truncated record stops the scan after its two header bytes; the complete one is fetched and runs. -/
theorem scanStopsAtTruncation : Obligations.ScanStopsAtTruncation := by
  intro s hp hmore
  constructor
  · intro htrunc
    refine ⟨(s.latch (s.pbuf.read s.offset) (s.pbuf.read (s.offset + 1))).work, step_scan_truncated hp hmore htrunc,
      rfl, rfl, rfl, ?_⟩
    simp only [State.latch_work, ctrlDlen_toNat]
  · intro hin
    obtain ⟨i, hi, hw, hf, hlen⟩ := fetchRecord_runs hmore hin
    obtain ⟨t, he⟩ := exec_record_completes hw hi s
    refine ⟨i, t, hi, hw, step_scan_run hp hf, he, (exec_record_effect hi he).phase.trans hp, ?_⟩
    rw [exec_record_offset hi he, hlen, Nat.add_assoc]

/-- Settles O3: what the decoder reads is a well-formed record, whose bytes stand at the cursor. -/
theorem stepRunsTheDecodedRecord : Obligations.StepRunsTheDecodedRecord := by
  intro s bytes i rest hp hmem hdec
  obtain ⟨hw, hi, rfl⟩ := decodedBytesReencode bytes i rest hdec
  have hlen : s.plen - s.offset = (recordBytes i ++ rest).length := by
    rw [← (State.memRead_eq_some.mp hmem).2, Memory.span_length]
  rw [hlen] at hmem
  exact step_of_recordBytes hp hw hi (State.memRead_append hmem).1

/-! ### The whole scan -/

/-- Settles O15: by induction on the bytes left, of which every record consumes at least 2. -/
theorem scanEndsWithinItsBound : Obligations.ScanEndsWithinItsBound := by
  intro s
  induction hn : s.plen - s.offset using Nat.strong_induction_on generalizing s with
  | _ n ih =>
    subst hn
    intro hp
    obtain ⟨-, hs⟩ | ⟨-, -, hs⟩ | ⟨i, t, -, hi, hs, he, hin⟩ := step_scan_cases hp
    · exact ⟨1, s.finishScan, by omega, runSteps_succ 0 hs, rfl⟩
    · exact ⟨1, _, by omega, runSteps_succ 0 hs, rfl⟩
    · have e := exec_record_effect hi he
      have hmoved := e.offset_bounds.1
      have hplen := e.plen
      obtain ⟨k, u, hk, hrun, hu⟩ := ih (t.plen - t.offset) (by omega) t rfl (e.phase.trans hp)
      exact ⟨k + 1, u, by omega, (runSteps_succ k hs).trans hrun, hu⟩

/-- The execution of records leaves the plaintext buffer as it was (20 R60). -/
theorem execList_keeps_buffer {is : List Instr} {s u : State} (hrecs : ∀ i ∈ is, i.isRecord = true)
    (h : execList is s = .next u) : u.pbuf = s.pbuf ∧ u.plen = s.plen := by
  induction is generalizing s with
  | nil =>
    obtain rfl := Host.Outcome.next.inj h
    exact ⟨rfl, rfl⟩
  | cons i is ih =>
    obtain ⟨hi, hrest⟩ := List.forall_mem_cons.mp hrecs
    cases he : exec i s with
    | next t =>
      have e := exec_record_effect hi he
      obtain ⟨hpbuf, hplen⟩ := ih hrest ((execList_cons he).symm.trans h)
      exact ⟨hpbuf.trans e.pbuf, hplen.trans e.plen⟩
    | fault f => simp [execList, he] at h
    | refused r => simp [execList, he] at h

/-- Settles O18: the complete records run in buffer order and leave the buffer, so the next pass finds the truncated
one. -/
theorem truncatedStreamKeepsItsPrefix : Obligations.TruncatedStreamKeepsItsPrefix := by
  intro is s u hrecs hp hmem hu hmore htrunc
  obtain ⟨hrun, v, hv, -, hvp⟩ := recordsRunInBufferOrder is s hrecs hp hmem
  obtain rfl := Host.Outcome.next.inj (hu.symm.trans hv)
  obtain ⟨hpbuf, hplen⟩ := execList_keeps_buffer (fun i hi => (hrecs i hi).2) hu
  rw [← hplen] at hmore htrunc
  rw [← hpbuf] at htrunc
  exact ⟨_, (runSteps_add is.length 1 (hrun.trans hu)).trans (runSteps_succ 0 (step_scan_truncated hvp hmore htrunc)),
    rfl, rfl, rfl⟩

end Sys2Proof.Machine
end

section
/-! When the record decoder rejects a string (43_tlv_records.md R152, R153), and the records that the spec writes out
in bytes. -/

namespace Sys2Proof.Machine

theorem decodeRecord_tooShort {bytes : Bytes} (h : bytes.length < 2) : decodeRecord bytes = .error .tooShort := by
  match bytes, h with
  | [], _ => rfl
  | [_], _ => rfl

theorem decodeRecord_truncated {ctrl mid : Byte} {rest : Bytes} (h : rest.length < ctrl.toNat % 32) :
    decodeRecord (ctrl :: mid :: rest) = .error (.truncated ctrl mid) := by
  rw [← ctrlDlen_toNat] at h
  simp only [decodeRecord, if_pos h]

theorem decodeRecord_complete {ctrl mid : Byte} {rest : Bytes} (h : ctrl.toNat % 32 ≤ rest.length) :
    ∃ p, decodeRecord (ctrl :: mid :: rest) = .ok p := by
  rw [← ctrlDlen_toNat] at h
  obtain ⟨row, hrow⟩ := recordRow_total ctrl
  exact ⟨_, decodeRecord_eq_ok_iff.mpr ⟨ctrl, mid, rest.take _, row, by rw [List.take_append_drop], rfl,
    List.length_take_of_le h, hrow⟩⟩

/-- Settles O22: a string is too short, or has a header and too few bytes behind it, or decodes. -/
theorem decoderRejectsByName : Obligations.DecoderRejectsByName := by
  intro bytes
  by_cases hshort : bytes.length < 2
  · rw [decodeRecord_tooShort hshort]
    refine ⟨by simp [hshort], fun ctrl mid rest hb => ?_, by simp⟩
    simp [hb] at hshort
  · obtain ⟨ctrl, mid, rest, rfl⟩ : ∃ ctrl mid rest, bytes = ctrl :: mid :: rest := by
      match bytes, hshort with
      | [], h => simp at h
      | [_], h => simp at h
      | ctrl :: mid :: rest, _ => exact ⟨ctrl, mid, rest, rfl⟩
    by_cases htrunc : rest.length < ctrl.toNat % 32
    · rw [decodeRecord_truncated htrunc]
      refine ⟨by simp, ?_, by simp⟩
      rintro _ _ _ ⟨⟩
      simp [htrunc]
    · obtain ⟨p, hp⟩ := decodeRecord_complete (mid := mid) (Nat.not_lt.mp htrunc)
      rw [hp]
      refine ⟨by simp, ?_, by simp⟩
      rintro _ _ _ ⟨⟩
      simp [htrunc]

/-- Settles O25: by evaluating the decoder at the eight byte strings. -/
theorem specExamplesDecode : Obligations.SpecExamplesDecode := by
  unfold Obligations.SpecExamplesDecode
  decide

end Sys2Proof.Machine
end

section
/-! What each record form consumes and delivers (43_tlv_records.md R159 to R166): the cursor and the outputs after a
payload form by its arm, the deliveries one by one, and from them the nine forms. -/

namespace Sys2Proof.Machine

/-! ### A payload form by its arm -/

/-- The state in which the arm of a payload form runs: the working registers and `RAW` written (43 R150). -/
abbrev State.atArm (s : State) (dfmt : BitVec 3) (mid : Byte) (raw : Bytes) : State :=
  (s.latch (ctrlByte dfmt (BitVec.ofNat 5 raw.length)) mid).setRaw raw

section payload

variable (dfmt : BitVec 3) (mid : Byte) {raw : Bytes} (s : State) (h1 : 1 ≤ raw.length) (h31 : raw.length ≤ 31)
include h1 h31

/-- A payload of 1 to 31 bytes is consumed (43 R156), and the outputs are those of the arm. -/
theorem payloadRecord_consumes (arm : State → State) :
    ∃ t, payloadRecord dfmt mid raw arm s = .next t ∧ t.offset = s.offset + 2 + raw.length ∧
      t.out = (arm (s.atArm dfmt mid raw)).out := by
  have hl : payloadLegal raw = true := payloadLegal_iff.mpr ⟨h1, h31⟩
  refine ⟨_, payloadRecord_legal hl, ?_, rfl⟩
  simp only [State.advance_offset, runArm_work, State.setRaw_work, State.latch_work, ctrlDlen_ctrlByte,
    dlen_of_legal hl]

/-- On the registry path a known id delivers what the decoder gives, and any other id is a notice (43 R159). -/
theorem registryRecord_consumes (dec : Entry → Decoded) :
    ∃ t, payloadRecord dfmt mid raw (registryPath dec) s = .next t ∧ t.offset = s.offset + 2 + raw.length ∧
      (∀ e, lookup s.cfg.registry mid = some e → t.out = ((s.atArm dfmt mid raw).deliver (dec e)).out) ∧
      (lookup s.cfg.registry mid = none → t.out = { s.out with notices := insertId mid s.out.notices }) := by
  obtain ⟨t, ht, hoff, hout⟩ := payloadRecord_consumes dfmt mid s h1 h31 (registryPath dec)
  refine ⟨t, ht, hoff, fun e he => ?_, fun hnone => ?_⟩
  · rw [hout, registryPath_some (s := s.atArm dfmt mid raw) he]
  · rw [hout, registryPath_none (s := s.atArm dfmt mid raw) hnone]
    rfl

end payload

/-- Settles O26: the control byte of `EMPTY` declares no payload. -/
theorem emptyConsumesTwoBytes : Obligations.EmptyConsumesTwoBytes := by
  intro dfmt mid s
  have hctrl : ctrlByte dfmt 0 = BitVec.ofNat 8 (dfmt.toNat * 32) := by
    revert dfmt
    decide
  simp only [exec, execEmpty, State.advance, State.latch, ctrlDlen_ctrlByte, ctrlDfmt_ctrlByte, ← hctrl]
  rfl

/-- Settles O32: the arm of all three forms raises the one error. -/
theorem badFormatsReportMalformed : Obligations.BadFormatsReportMalformed := by
  intro mid raw s h1 h31 i hi
  have hbad : ∀ dfmt : BitVec 3,
      ∃ t, payloadRecord dfmt mid raw (fun s => s.raiseRecord .malformedControlByte) s = .next t ∧
        t.offset = s.offset + 2 + raw.length ∧
        t.out = { s.out with errors := s.out.errors ++ [⟨s.offset, mid, .malformedControlByte⟩] } :=
    fun dfmt => payloadRecord_consumes dfmt mid s h1 h31 _
  simp only [List.mem_cons, List.not_mem_nil, or_false] at hi
  obtain rfl | rfl | rfl := hi
  · exact hbad 5
  · exact hbad 6
  · exact hbad 7

/-! ### Numbers -/

/-- A delivered number is stored as 41 R116 and R124 say. -/
theorem State.deliverNumber_stores (s : State) (x : Rounded) :
    storesNumber s.out (s.deliverNumber x).out s.work.mid x := by
  cases x with
  | datum d =>
    cases d with
    | nan => exact ⟨_, (everyNanIsAPossibleDraw _).mpr ⟨_, rfl⟩, rfl⟩
    | inf neg => rfl
    | fin neg m e => rfl
  | overflow neg =>
    simp only [State.deliverNumber]
    split
    · exact .inr (.inl rfl)
    · exact .inr (.inr rfl)
    · exact .inl rfl

/-- Settles O27: a nonempty payload has an unsigned operand, which the registry path scales and stores. -/
theorem uintStoresTheScaledValue : Obligations.UintStoresTheScaledValue := by
  intro mid raw s h1 h31
  obtain ⟨t, ht, hoff, hknown, hunknown⟩ := registryRecord_consumes 0 mid s h1 h31
    (fun e => .number (scale (intToF64 (leNat raw)) e.factor e.decimals))
  refine ⟨t, (execUint_eq h1).trans ht, hoff, fun e he => ?_, hunknown⟩
  rw [hknown e he]
  exact State.deliverNumber_stores _ _

/-- Settles O28: as for `UINT`, with the operand's two's complement. -/
theorem sintStoresTheScaledValue : Obligations.SintStoresTheScaledValue := by
  intro mid raw s h1 h31
  obtain ⟨i, hi, -⟩ := signedOperandIsTwosComplement.1 raw h1
  obtain ⟨t, ht, hoff, hknown, hunknown⟩ := registryRecord_consumes 1 mid s h1 h31
    (fun e => .number (scale (intToF64 i) e.factor e.decimals))
  refine ⟨t, (execSint_eq hi).trans ht, hoff, fun e he => ⟨i, hi, ?_⟩, hunknown⟩
  rw [hknown e he]
  exact State.deliverNumber_stores _ _

/-- The decoder of `FLOAT` by the width of the payload (41 R119, R121). -/
theorem decodeFloat_by_width (raw : Bytes) (factor : BitVec 64) (decimals : Int) :
    decodeFloat raw factor decimals =
      if raw.length = 2 then .number (scale (datum16 (leNat raw)) factor decimals)
      else if raw.length = 4 then .number (scale (datum32 (leNat raw)) factor decimals)
      else if raw.length = 8 then .number (scale (datum64 (leNat raw)) factor decimals)
      else .error .unsupportedNumericWidth := by
  simp only [decodeFloat, floatOperand]
  split_ifs <;> rfl

/-- Settles O29: the registry path delivers what the payload's width selects. -/
theorem floatStoresOrReportsTheWidth : Obligations.FloatStoresOrReportsTheWidth := by
  intro mid raw s h1 h31
  obtain ⟨t, ht, hoff, hknown, hunknown⟩ := registryRecord_consumes 2 mid s h1 h31
    (fun e => decodeFloat raw e.factor e.decimals)
  refine ⟨t, ht, hoff, fun e he => ?_, hunknown⟩
  rw [hknown e he, decodeFloat_by_width]
  split_ifs
  · exact State.deliverNumber_stores _ _
  · exact State.deliverNumber_stores _ _
  · exact State.deliverNumber_stores _ _
  · rfl

/-! ### Texts and addresses -/

theorem State.deliver_text_discarded {s : State} {t : List Char} (h : s.cfg.stringDiscard = true) :
    s.deliver (.text t) = s := if_pos h

theorem State.deliver_text_kept {s : State} {t : List Char} (h : ¬ s.cfg.stringDiscard = true) :
    s.deliver (.text t) = s.appendKnown (.text t) := if_neg h

theorem State.deliver_mac_counted {s : State} {m : MacAddr} (h : s.cfg.macCountsAsKnown = true) :
    s.deliver (.macAddress m) = s.appendKnown (.macAddress m) := if_pos h

theorem State.deliver_mac_uncounted {s : State} {m : MacAddr} (h : ¬ s.cfg.macCountsAsKnown = true) :
    s.deliver (.macAddress m) = s.appendResult (.macAddress m) := if_neg h

theorem decodeString_utf8Encode (text : List Char) : decodeString (utf8Encode text) = .text text := by
  rw [decodeString, textRoundTrip.1 text]

theorem decodeString_of_not_encoding {raw : Bytes} (h : ∀ text, utf8Encode text ≠ raw) :
    decodeString raw = .error .invalidUTF8 := by
  have hnone : textOperand raw = none := Option.eq_none_iff_forall_ne_some.mpr fun text ht =>
    h text (textRoundTrip.2 raw text ht)
  rw [decodeString, hnone]

/-- Settles O30: the decoder inverts the encoding of texts, and the registry path delivers what it gives. -/
theorem utf8StoresTextOrReportsIt : Obligations.Utf8StoresTextOrReportsIt := by
  intro mid raw s h1 h31
  obtain ⟨t, ht, hoff, hknown, hunknown⟩ := registryRecord_consumes 3 mid s h1 h31
    (fun _ => decodeString raw)
  refine ⟨t, ht, hoff, fun e he => ⟨?_, fun hbad => ?_⟩, hunknown⟩
  · rintro text rfl
    rw [hknown e he, decodeString_utf8Encode]
    split_ifs with hdrop
    · rw [State.deliver_text_discarded (s := s.atArm 3 mid _) hdrop]
      rfl
    · rw [State.deliver_text_kept (s := s.atArm 3 mid _) hdrop]
      rfl
  · rw [hknown e he, decodeString_of_not_encoding hbad]
    rfl

theorem decodeMacOverride_reverse {addr : MacAddr} {raw : Bytes} (h : addr.toBytes = raw.reverse) :
    decodeMacOverride raw = .macAddress addr := by
  rw [← raw.reverse_reverse, ← h]
  rfl

theorem decodeMacOverride_of_length {raw : Bytes} (h : raw.length ≠ 6) :
    decodeMacOverride raw = .error .invalidMacLength := by
  have hnone : macOperand raw = none := by
    unfold macOperand
    split
    · simp at h
    · rfl
  rw [decodeMacOverride, hnone]

/-- Settles O31: the arm delivers the reversed address or the error without a lookup. -/
theorem macovrStoresTheReversedAddress : Obligations.MacovrStoresTheReversedAddress := by
  intro mid raw s h1 h31
  obtain ⟨t, ht, hoff, hout⟩ := payloadRecord_consumes 4 mid s h1 h31
    (fun s => s.deliver (decodeMacOverride raw))
  refine ⟨t, ht, hoff, fun addr haddr => ?_, fun hlen => ?_⟩
  · rw [hout, decodeMacOverride_reverse haddr]
    split_ifs with hcount
    · rw [State.deliver_mac_counted (s := s.atArm 4 mid raw) hcount]
      rfl
    · rw [State.deliver_mac_uncounted (s := s.atArm 4 mid raw) hcount]
      rfl
  · rw [hout, decodeMacOverride_of_length hlen]
    rfl

end Sys2Proof.Machine
end

section
/-! The one outcome of a record (43_tlv_records.md R168), and what a record reads beside its own bytes: of a registry
entry the factor and the decimals only (R167), in `MACOVR` nothing of the registry (R172). -/

namespace Sys2Proof.Machine

/-! ### Outcomes -/

theorem OutputStep.outcome {offset : Nat} {mid : Byte} {o o' : Outputs} (h : OutputStep offset mid o o') :
    o' = o ∨
    (∃ v n, n ≤ 1 ∧ o' = { o with results := o.results ++ [(mid, v)], knownCount := o.knownCount + n }) ∨
    o' = { o with notices := insertId mid o.notices } ∨
    ∃ kind, o' = { o with errors := o.errors ++ [⟨offset, mid, kind⟩] } := by
  cases h with
  | none => exact .inl rfl
  | value v n hn => exact .inr (.inl ⟨v, n, hn, rfl⟩)
  | notice => exact .inr (.inr (.inl rfl))
  | error kind => exact .inr (.inr (.inr ⟨kind, rfl⟩))

/-- Settles O34: the outcome in the effect of a record. -/
theorem recordHasOneOutcome : Obligations.RecordHasOneOutcome := fun _ _ _ hi h => (exec_record_effect hi h).out.outcome

/-- No delivery makes a notice: only the lookup does (43 R159). -/
theorem State.deliver_notices (s : State) (d : Decoded) : (s.deliver d).out.notices = s.out.notices := by
  cases d with
  | number x =>
    cases x with
    | datum d => cases d <;> rfl
    | overflow neg =>
      simp only [State.deliver, State.deliverNumber]
      split <;> rfl
  | text t =>
    simp only [State.deliver, State.deliverText]
    split <;> rfl
  | macAddress m =>
    simp only [State.deliver, State.deliverMac]
    split <;> rfl
  | error kind => rfl

/-! ### Another registry and other inputs -/

/-- The same state over another registry and other call inputs. -/
def State.over (s : State) (r : Registry) (x : Inputs) : State :=
  { s with cfg := { s.cfg with registry := r }, inp := x }

theorem State.over_of_inp {s : State} {x : Inputs} (h : s.inp = x) (r : Registry) :
    s.over r x = { s with cfg := { s.cfg with registry := r } } := by
  subst h
  rfl

/-- A delivery reads neither the registry nor the inputs. -/
theorem State.deliver_over (s : State) (d : Decoded) (r : Registry) (x : Inputs) :
    (s.over r x).deliver d = (s.deliver d).over r x := by
  cases d with
  | number y =>
    cases y with
    | datum d => cases d <;> rfl
    | overflow neg =>
      have hdraw : (s.over r x).draws = s.draws := rfl
      simp only [State.deliver, State.deliverNumber, hdraw]
      split <;> rfl
  | text t =>
    have hdrop : (s.over r x).cfg.stringDiscard = s.cfg.stringDiscard := rfl
    simp only [State.deliver, State.deliverText, hdrop]
    split <;> rfl
  | macAddress m =>
    have hknown : (s.over r x).cfg.macCountsAsKnown = s.cfg.macCountsAsKnown := rfl
    simp only [State.deliver, State.deliverMac, hknown]
    split <;> rfl
  | error kind => rfl

/-- A payload form reads no more of the registry and the inputs than its arm does. -/
theorem payloadRecord_over {dfmt : BitVec 3} {mid : Byte} {raw : Bytes} {arm : State → State} {s t : State}
    {r : Registry} {x : Inputs} (harm : ∀ u : State, u.cfg = s.cfg → arm (u.over r x) = (arm u).over r x)
    (h : payloadRecord dfmt mid raw arm s = .next t) :
    payloadRecord dfmt mid raw arm (s.over r x) = .next (t.over r x) := by
  obtain ⟨hl, rfl⟩ := payloadRecord_next.mp h
  have harm' : arm ((s.over r x).atArm dfmt mid raw) = (arm (s.atArm dfmt mid raw)).over r x :=
    harm (s.atArm dfmt mid raw) rfl
  rw [payloadRecord_legal hl, runArm, harm']
  rfl

/-! ### What is read of a registry entry -/

/-- The part of an entry that a record reads: factor and decimals (43 R167). -/
def entryScaling (e : Entry) : BitVec 64 × Int := (e.factor, e.decimals)

/-- A decoder that reads no more of an entry than its scaling. -/
def ReadsScaling (dec : Entry → Decoded) : Prop := ∃ g, dec = g ∘ entryScaling

/-- Both registries hold the same ids, with the same factors and decimals. -/
def sameScaling (r r' : Registry) : Prop := ∀ id, (lookup r' id).map entryScaling = (lookup r id).map entryScaling

theorem lookup_map_representation (r : Registry) (f : Entry → Representation) (id : Byte) :
    lookup (r.map fun e => { e with representation := f e }) id =
      (lookup r id).map fun e => { e with representation := f e } :=
  List.find?_map ..

theorem sameScaling_representation (r : Registry) (f : Entry → Representation) :
    sameScaling r (r.map fun e => { e with representation := f e }) := fun id => by
  rw [lookup_map_representation, Option.map_map]
  rfl

/-- With a decoder that reads an entry's scaling only, the registry path goes the same way over a registry of the same
scaling. -/
theorem registryPath_over {dec : Entry → Decoded} {s u : State} {r : Registry} {x : Inputs}
    (hdec : ReadsScaling dec) (hr : sameScaling s.cfg.registry r) (hu : u.cfg = s.cfg) :
    registryPath dec (u.over r x) = (registryPath dec u).over r x := by
  obtain ⟨g, rfl⟩ := hdec
  have hid := hr u.work.mid
  rw [← hu] at hid
  cases he : lookup u.cfg.registry u.work.mid with
  | none =>
    rw [he, Option.map_none, Option.map_eq_none_iff] at hid
    rw [registryPath_none he, registryPath_none (s := u.over r x) hid]
    rfl
  | some e =>
    rw [he, Option.map_some, Option.map_eq_some_iff] at hid
    obtain ⟨e', he', hsame⟩ := hid
    rw [registryPath_some he, registryPath_some (s := u.over r x) he', Function.comp_apply, hsame, State.deliver_over]
    rfl

/-- An integer decoder only scales its operand (41 R111, R112). -/
theorem readsScaling_of_operand {operand : Option Int} {dec : Entry → Decoded}
    (h : operand.map (fun i e => .number (scale (intToF64 i) e.factor e.decimals)) = some dec) : ReadsScaling dec := by
  obtain ⟨i, -, rfl⟩ := Option.map_eq_some_iff.mp h
  exact ⟨fun p => .number (scale (intToF64 i) p.1 p.2), rfl⟩

theorem integerRecord_over {dfmt : BitVec 3} {mid : Byte} {raw : Bytes} {dec : Option (Entry → Decoded)} {s t : State}
    {r : Registry} {x : Inputs} (hdec : ∀ d, dec = some d → ReadsScaling d) (hr : sameScaling s.cfg.registry r)
    (h : integerRecord dfmt mid raw dec s = .next t) :
    integerRecord dfmt mid raw dec (s.over r x) = .next (t.over r x) := by
  obtain ⟨d, hd, h⟩ := integerRecord_next.mp h
  exact integerRecord_next.mpr ⟨d, hd, payloadRecord_over (fun _ => registryPath_over (hdec d hd) hr) h⟩

/-- A record does the same over any registry of the same scaling and any inputs. -/
theorem exec_record_over {i : Instr} {s t : State} {r : Registry} {x : Inputs} (hi : i.isRecord = true)
    (hr : sameScaling s.cfg.registry r) (h : exec i s = .next t) : exec i (s.over r x) = .next (t.over r x) := by
  cases i with
  | empty dfmt mid =>
    obtain rfl := Host.Outcome.next.inj h
    rfl
  | uint mid raw => exact integerRecord_over (fun _ => readsScaling_of_operand) hr h
  | sint mid raw => exact integerRecord_over (fun _ => readsScaling_of_operand) hr h
  | float mid raw => exact payloadRecord_over (fun _ => registryPath_over ⟨fun p => decodeFloat raw p.1 p.2, rfl⟩ hr) h
  | utf8 mid raw => exact payloadRecord_over (fun _ => registryPath_over ⟨fun _ => decodeString raw, rfl⟩ hr) h
  | macovr mid raw => exact payloadRecord_over (fun u _ => u.deliver_over _ r x) h
  | bad5 mid raw => exact payloadRecord_over (fun _ _ => rfl) h
  | bad6 mid raw => exact payloadRecord_over (fun _ _ => rfl) h
  | bad7 mid raw => exact payloadRecord_over (fun _ _ => rfl) h
  | decodePlain => simp [Instr.isRecord] at hi
  | decodeEnc => simp [Instr.isRecord] at hi
  | notApplicable svcId => simp [Instr.isRecord] at hi

/-- Settles O38: other representations leave the scaling, and a record keeps the registry. -/
theorem representationIsNeverRead : Obligations.RepresentationIsNeverRead := by
  intro i s t f hi h
  obtain ⟨hcfg, hinp⟩ := exec_keepsInputs h
  have hreg : t.cfg.registry = s.cfg.registry := congrArg Params.registry hcfg
  have hover := exec_record_over (x := s.inp) hi (sameScaling_representation s.cfg.registry f) h
  rw [State.over_of_inp rfl, State.over_of_inp hinp] at hover
  rw [hreg]
  exact hover

/-- Settles O39: the arm of `MACOVR` is a delivery, without the registry path around it. -/
theorem macovrIgnoresTheRegistry : Obligations.MacovrIgnoresTheRegistry := by
  intro mid raw s t r h
  constructor
  · obtain ⟨-, rfl⟩ := payloadRecord_next.mp h
    exact State.deliver_notices _ _
  · have hover := payloadRecord_over (fun u _ => u.deliver_over _ r s.inp) h
    rw [State.over_of_inp rfl, State.over_of_inp (exec_keepsInputs h).2] at hover
    exact hover

end Sys2Proof.Machine
end

section
/-! The open undoes the seal, and only the seal (44_decryptor.md R198, R204, 45_aes_ccm_reference.md R240, R241). The
reason is the payload XOR of R237: it undoes itself, so that a plaintext and its ciphertext determine each other. -/

namespace Sys2Proof.Machine

/-- The payload XOR undoes itself: both passes take the same keystream, as both strings have the same length. -/
@[simp] theorem xorStream_xorStream (e : Block → Block) (nonce : Nonce) (b : Bytes) :
    xorStream e nonce (xorStream e nonce b) = b := by
  have hcover : b.length ≤ (keystream e nonce b.length).length := by
    rw [keystream_length]
    exact le_blockCount _
  rw [xorStream, xorStream_length, xorStream, zipWith_xor_self _ _ hcover]

/-- A string is the XOR of another exactly when the other is the XOR of it. -/
theorem xorStream_eq_comm (e : Block → Block) (nonce : Nonce) {b c : Bytes} :
    xorStream e nonce b = c ↔ xorStream e nonce c = b :=
  Function.Involutive.eq_iff (xorStream_xorStream e nonce) |>.trans eq_comm

/-- The open answers a plaintext exactly when it is the XOR of the ciphertext and the tag is its own (R240). -/
theorem ccmOpen_eq_some_iff {e : Block → Block} {nonce : Nonce} {aad ct pt : Bytes} {mic : Bytes4} :
    ccmOpen e nonce aad ct mic = some pt ↔ xorStream e nonce ct = pt ∧ ccmMic e nonce aad pt = mic := by
  simp only [ccmOpen, Option.ite_none_right_eq_some, Option.some.injEq]
  constructor
  · rintro ⟨hmic, rfl⟩
    exact ⟨rfl, hmic⟩
  · rintro ⟨rfl, hmic⟩
    exact ⟨hmic, rfl⟩

/-- Over any block cipher, open and seal are each other's inverse on the pairs whose tag matches (R240, R241). -/
theorem ccmOpen_eq_some_iff_ccmSeal_eq {e : Block → Block} {nonce : Nonce} {aad ct pt : Bytes} {mic : Bytes4} :
    ccmOpen e nonce aad ct mic = some pt ↔ ccmSeal e nonce aad pt = (ct, mic) := by
  rw [ccmOpen_eq_some_iff, xorStream_eq_comm, ccmSeal, Prod.mk.injEq]

/-- Settles O55: the case of AES-128 of `ccmOpen_eq_some_iff_ccmSeal_eq`, and the length of a plaintext. -/
theorem openSucceedsExactlyOnTagMatch : Obligations.OpenSucceedsExactlyOnTagMatch :=
  fun _ _ _ _ _ _ => ⟨ccmOpen_eq_some_iff_ccmSeal_eq, aeadOpen_length⟩

/-- Settles O54: what the seal gives is the ciphertext and the tag that O55 asks for. -/
theorem sealedFramesOpen : Obligations.SealedFramesOpen := fun key nonce aad pt =>
  (openSucceedsExactlyOnTagMatch key nonce aad _ _ pt).1.mpr rfl

end Sys2Proof.Machine
end

section
/-! The check values of AES-128 (45_aes_ccm_reference.md R227) and the S-box table against its definition (R222, R223).
The table itself names the inverse the definition speaks of: the affine map of R223 is a bijection, so the field inverse
of a byte is its table entry with the map undone. -/

namespace Sys2Proof.Machine

/-! ### The S-box -/

/-- The affine map of R223. -/
def sboxAffine (b : Byte) : Byte :=
  b ^^^ b.rotateLeft 1 ^^^ b.rotateLeft 2 ^^^ b.rotateLeft 3 ^^^ b.rotateLeft 4 ^^^ 0x63

/-- The map that undoes `sboxAffine`: with a rotation by `k` read as `x ^ k` over the two-element field modulo
`x ^ 8 - 1`, the product of `1 + x + x ^ 2 + x ^ 3 + x ^ 4` and `x + x ^ 3 + x ^ 6` is 1. -/
def sboxAffineInv (c : Byte) : Byte := c.rotateLeft 1 ^^^ c.rotateLeft 3 ^^^ c.rotateLeft 6 ^^^ 0x05

theorem sboxAffine_sboxAffineInv (c : Byte) : sboxAffine (sboxAffineInv c) = c := by
  revert c
  decide

/-- The byte that the table gives for 0 comes from 0. -/
theorem sboxAffineInv_sbox_zero : sboxAffineInv (sbox 0) = 0 := by decide

/-- A table entry with the affine map undone is the inverse of its index in the field (R222). -/
theorem gfMul_sboxAffineInv_sbox {a : Byte} (ha : a ≠ 0) : gfMul a (sboxAffineInv (sbox a)) = 1 := by
  revert a
  decide

/-- Settles O53: the inverse of a byte is its table entry with the affine map undone. -/
theorem sboxMatchesItsDefinition : Obligations.SboxMatchesItsDefinition := by
  intro a
  refine ⟨sboxAffineInv (sbox a), ?_, (sboxAffine_sboxAffineInv (sbox a)).symm⟩
  rcases eq_or_ne a 0 with rfl | ha
  · exact .inl ⟨rfl, sboxAffineInv_sbox_zero⟩
  · exact .inr (gfMul_sboxAffineInv_sbox ha)

/-! ### The block cipher -/

/-- Settles O52: the two encryptions and the two round keys, each run by the model. Ten rounds in a row are past the
elaborator's recursion limit, so the kernel alone runs the encryptions. -/
theorem aesCheckValues : Obligations.AesCheckValues := by
  refine ⟨?firstBlock, ?secondBlock, ?roundKey1, ?roundKey10⟩
  case firstBlock => decide +kernel
  case secondBlock => decide +kernel
  case roundKey1 => decide
  case roundKey10 => decide

end Sys2Proof.Machine
end

section
/-! The three frame-level operations (46_orchestrator.md R250 to R254) by the whole state they answer, and what the host
reads once the call has ended, by status and scheme (R255). -/

namespace Sys2Proof.Machine

/-! ### The selected operation -/

/-- Settles O4: the step of an idle block runs what `SVC_ID` decodes to. -/
theorem stepStartsTheSelectedOperation : Obligations.StepStartsTheSelectedOperation := by
  intro s hp
  obtain ⟨hplain, henc, hother⟩ := selectorComparesAllBits
  refine ⟨fun hs => ?_, fun hs => ?_, fun hnplain hnenc => ?_⟩
  · rw [step_idle hp, hs, hplain]
  · rw [step_idle hp, hs, henc]
  · rw [step_idle hp, hother _ hnplain hnenc]

/-- Settles O56: the scan starts on the start of a call, whose outputs and cursor are those that a scan starts with. -/
theorem decodePlainStartsTheScan : Obligations.DecodePlainStartsTheScan := fun _ => rfl

/-- Settles O59: on the start of a call only the phase and the status are written. -/
theorem notApplicableEndsTheCall : Obligations.NotApplicableEndsTheCall := fun _ _ => rfl

/-! ### The open of an encrypted frame -/

theorem exec_decodeEnc_of_macKnown {s : State} (h : s.inp.macKnown = true) :
    exec .decodeEnc s = openFrame s.beginCall.enterOpen := by simp [exec, execDecodeEnc, h]

theorem bytes4_toBytes {b : Bytes} (h : b.length = 4) : (bytes4 b).toBytes = b := by
  obtain ⟨b0, b1, b2, b3, rfl⟩ := List.length_eq_four.mp h
  rfl

/-- The nonce is the address, the identifier and the four bytes of the counter (44 R196). -/
theorem makeNonce_toBytes (mac : MacAddr) {counter : Bytes} (h : counter.length = 4) :
    (makeNonce mac (bytes4 counter)).toBytes = mac.toBytes ++ [0x1E, 0x18] ++ counter := by
  rw [Nonce.toBytes, makeNonce, bytes4_toBytes h]

/-- What the open of a sliced frame leaves as it was, whether the tag verifies or not. -/
theorem verifyAndFill_keeps (s : State) :
    (verifyAndFill s).cfg = s.cfg ∧ (verifyAndFill s).inp = s.inp ∧ (verifyAndFill s).draws = s.draws ∧
      (verifyAndFill s).work = s.work ∧ (verifyAndFill s).ctx = s.ctx := by
  cases h : aeadOpen s.inp.key s.ctx.nonce Config.aad s.ctx.ct s.ctx.mic with
  | none => simp [verifyAndFill_none h]
  | some pt => simp [verifyAndFill_some h]

/-- The cursor is at the start of the buffer after the open (43 R150). -/
theorem verifyAndFill_offset {s : State} (h0 : s.offset = 0) : (verifyAndFill s).offset = 0 := by
  cases h : aeadOpen s.inp.key s.ctx.nonce Config.aad s.ctx.ct s.ctx.mic with
  | none => simp [verifyAndFill_none h, h0]
  | some pt => simp [verifyAndFill_some h]

/-- A plaintext of the ciphertext's length is the whole of what the scan reads (44 R190, R199). -/
theorem State.memRead_fillDecrypted {s : State} {pt : Bytes} (h : pt.length = s.inp.frameLen - 8) :
    (s.fillDecrypted pt).startScan.memRead 0 (s.inp.frameLen - 8) = some pt := by
  refine State.memRead_eq_some.mpr ⟨by simp, ?_⟩
  rw [← h]
  exact Memory.span_ofBytes pt

/-- Settles O58: the frame is sliced by the open that the started call reaches, whose outcome is that of the tag. -/
theorem decodeEncOpensTheFrame : Obligations.DecodeEncOpensTheFrame := by
  intro s hmac hpres hkey hlen
  rw [exec_decodeEnc_of_macKnown hmac]
  refine ⟨fun hbound ct counter mic hct hcounter hmic => ?_, openFrame_refused (s := s.beginCall.enterOpen) hpres hkey⟩
  obtain ⟨-, rfl⟩ := State.frameRead_eq_some.mp hct
  obtain ⟨-, rfl⟩ := State.frameRead_eq_some.mp hcounter
  obtain ⟨-, rfl⟩ := State.frameRead_eq_some.mp hmic
  obtain ⟨hcfg, hinp, hdraws, hwork, hctx⟩ := verifyAndFill_keeps s.beginCall.enterOpen.sliceFrame
  refine ⟨_, openFrame_reaches hpres hkey hlen hbound, hcfg, hinp, hdraws, hwork, verifyAndFill_offset rfl, ?_⟩
  rw [hctx]
  refine ⟨rfl, bytes4_toBytes (Memory.span_length ..), bytes4_toBytes (Memory.span_length ..),
    makeNonce_toBytes _ (Memory.span_length ..), fun pt hopen => ?verified, fun hopen => ?mismatch⟩
  case verified =>
    have hpt : pt.length = s.inp.frameLen - 8 := (aeadOpen_length hopen).trans (Memory.span_length ..)
    rw [verifyAndFill_some hopen]
    exact ⟨rfl, rfl, State.memRead_fillDecrypted hpt, rfl⟩
  case mismatch =>
    rw [verifyAndFill_none hopen]
    exact ⟨rfl, rfl, rfl, rfl⟩

/-! ### What the host reads -/

/-- No scan has run in a call that ended with a status other than `Ok` (46 R255). -/
theorem State.Inv.knownCount_of_not_ok {s : State} (h : s.Inv) (hp : s.phase = .done) (hs : s.out.status ≠ .ok) :
    s.out.knownCount = 0 := by
  obtain ⟨hresults, -⟩ := h.doneOther hp hs
  simpa [hresults] using h.knownBounded

theorem State.Inv.success_of_not_ok {s : State} (h : s.Inv) (hp : s.phase = .done) (hs : s.out.status ≠ .ok) :
    s.out.success = false := by
  obtain ⟨-, -, -, -, hsuccess⟩ := h.doneOther hp hs
  exact hsuccess

/-- `SUCCESS = (KNOWN_COUNT > 0)` in every ended call, with any status (10 R29). -/
theorem State.Inv.success_of_done {s : State} (h : s.Inv) (hp : s.phase = .done) :
    s.out.success = decide (0 < s.out.knownCount) := by
  by_cases hs : s.out.status = .ok
  · exact h.doneOk hp hs
  · simp [h.success_of_not_ok hp hs, h.knownCount_of_not_ok hp hs]

theorem FatalKind.status_ne_ok (kind : FatalKind) : kind.status ≠ .ok := by cases kind <;> decide

theorem FatalKind.status_ne_notApplicable (kind : FatalKind) : kind.status ≠ .notApplicable := by
  cases kind <;> decide

/-- The flags of a call that is not applicable: no verdict was reached (46 R255). -/
theorem State.Inv.flags_of_notApplicable {s : State} (h : s.Inv) (hp : s.phase = .done)
    (hs : s.out.status = .notApplicable) :
    s.out.success = false ∧ s.out.decryptOk = none ∧ s.out.keyVerified = none := by
  obtain ⟨-, hna, -, -⟩ := h.verdicts
  obtain ⟨-, -, hdec, hkey⟩ := hna hp hs
  exact ⟨h.success_of_not_ok hp (by simp [hs]), hdec, hkey⟩

/-- The flags of a call that a fatal kind ended: the key is refuted only if its tag was checked (46 R255). -/
theorem State.Inv.flags_of_fatal {s : State} {kind : FatalKind} (h : s.Inv) (hp : s.phase = .done)
    (hs : s.out.status = kind.status) :
    s.out.success = false ∧ s.out.decryptOk = some false ∧ s.out.keyVerified = kind.keyVerified := by
  have hok : s.out.status ≠ .ok := hs ▸ kind.status_ne_ok
  obtain ⟨-, -, hfatal, -⟩ := h.verdicts
  obtain ⟨-, hdec, hkey⟩ := hfatal hp hok (hs ▸ kind.status_ne_notApplicable)
  refine ⟨h.success_of_not_ok hp hok, hdec, ?_⟩
  rw [hkey, hs]
  cases kind <;> rfl

/-- Settles O60: the outcome and the errors are shown by the status, and the invariant gives the flags that go with
it. -/
theorem callResultFollowsTheStatusTable : Obligations.CallResultFollowsTheStatusTable := by
  intro s h hp
  refine ⟨_, _, State.afterCall_of_done hp _, rfl, State.afterCall_of_done hp _, rfl, h.success_of_done hp,
    h.knownCount_of_not_ok hp, ?_⟩
  cases hs : s.out.status with
  | ok => exact ⟨rfl, rfl, h.doneOk hp hs, (verdictsAgree_ok hp hs).mp h.verdicts⟩
  | notApplicable => exact ⟨rfl, rfl, h.flags_of_notApplicable hp hs⟩
  | authenticationFailed => exact ⟨rfl, rfl, h.flags_of_fatal (kind := .authenticationFailed) hp hs⟩
  | schemeUnavailable => exact ⟨rfl, rfl, h.flags_of_fatal (kind := .schemeUnavailable) hp hs⟩
  | missingKey => exact ⟨rfl, rfl, h.flags_of_fatal (kind := .missingKey) hp hs⟩
  | invalidKeyLength => exact ⟨rfl, rfl, h.flags_of_fatal (kind := .invalidKeyLength) hp hs⟩
  | truncatedPayload => exact ⟨rfl, rfl, h.flags_of_fatal (kind := .truncatedPayload) hp hs⟩

end Sys2Proof.Machine
end

section
/-! What an exception can and cannot depend on (60_exceptions.md): the fatal causes of `DECODE_ENC` in their order
(R290), and a record's blindness to the call inputs (R300). -/

namespace Sys2Proof.Machine

/-! ### The call inputs -/

/-- Over its own registry only the call inputs of a state change. -/
theorem State.over_of_registry {s : State} {r : Registry} (h : s.cfg.registry = r) (x : Inputs) :
    s.over r x = { s with inp := x } := by
  subst h
  rfl

/-- Settles O37: the case of `exec_record_over` with the registry left in place, which a record keeps. -/
theorem recordsCannotReadTheInputs : Obligations.RecordsCannotReadTheInputs := by
  intro i s t x hi h
  have hreg : t.cfg.registry = s.cfg.registry := congrArg Params.registry (exec_keepsInputs h).1
  have hover := exec_record_over (x := x) hi (fun _ => rfl) h
  rwa [State.over_of_registry rfl, State.over_of_registry hreg] at hover

/-! ### The fatal causes -/

theorem exec_decodeEnc_of_macUnknown {s : State} (h : s.inp.macKnown = false) :
    exec .decodeEnc s = .next (s.beginCall.enterOpen.raiseFatal .schemeUnavailable) := by
  simp [exec, execDecodeEnc, h]

/-- Settles O57: the address is tested before the open, whose own fatal causes follow in the order of R202. The state of
each is the start of a call with the kind's status and verdicts. -/
theorem decodeEncFatalPriority : Obligations.DecodeEncFatalPriority := by
  intro s ended
  refine ⟨exec_decodeEnc_of_macUnknown, fun hmac hpres => ?missingKey, fun hmac hpres hkey => ?invalidKeyLength,
    fun hmac hpres hkey hlen => ?truncatedPayload⟩
  case missingKey => exact (exec_decodeEnc_of_macKnown hmac).trans (openFrame_missingKey hpres)
  case invalidKeyLength => exact (exec_decodeEnc_of_macKnown hmac).trans (openFrame_invalidKeyLength hpres hkey)
  case truncatedPayload => exact (exec_decodeEnc_of_macKnown hmac).trans (openFrame_truncatedPayload hpres hkey hlen)

end Sys2Proof.Machine
end

section
/-! The life of a call (70_reset_and_hazards.md R313, R315, R319): the host loads it, it ends within its bound, and it rests
until the next one is loaded. -/

namespace Sys2Proof.Machine

/-! ### The load -/

/-- What a successful load requires and gives (R315, R286). -/
theorem State.startCall_eq_some {s t : State} {inp : Inputs} :
    s.startCall inp = some t ↔
      ((s.phase = .idle ∨ s.phase = .done) ∧ inp.frameLen ≤ s.cfg.maxFrameLen ∧ inp.frame.wf ∧
        ∀ c ∈ inp.frame, c.1 < inp.frameLen) ∧ t = { s with inp := inp, phase := .idle } := by
  rw [State.startCall, Option.ite_none_right_eq_some, Option.some.injEq, eq_comm (a := t)]

/-- The clauses of the invariant about an idle block speak of the buffers, the cursor and the lists alone, none of which
a load of canonical inputs spoils. -/
theorem State.Inv.load {s : State} (h : s.Inv) {inp : Inputs} (hframe : inp.frame.wf) :
    State.Inv { s with inp := inp, phase := .idle } :=
  { h with
    frameForm := hframe
    openingFresh := by simp
    scanRunning := by simp
    doneOk := by simp
    doneOther := by simp
    verdicts := by simp [verdictsAgree] }

/-- Settles O13: by what a successful load requires; of the invariant it touches the form of `FRAME` and the clauses of
the other phases. -/
theorem loadingACallKeepsTheInvariant : Obligations.LoadingACallKeepsTheInvariant := by
  intro s t inp h
  obtain ⟨⟨hphase, -, hframe, -⟩, rfl⟩ := State.startCall_eq_some.mp h
  exact ⟨hphase, rfl, fun hinv => hinv.load hframe⟩

/-! ### The end of a call -/

/-- An ended call rests (log 8). -/
theorem runSteps_done {s : State} (h : s.phase = .done) (k : Nat) : runSteps k s = .next s := by
  induction k with
  | zero => exact runSteps_zero s
  | succ k ih => exact (runSteps_succ k (step_done h)).trans ih

/-- Settles O7: the phase alone decides whether an output can be read, and an ended call rests. -/
theorem outputsAppearAtTheEndAndStay : Obligations.OutputsAppearAtTheEndAndStay := fun _ =>
  ⟨fun hp => ⟨State.afterCall_of_running hp _, State.afterCall_of_running hp _⟩,
    fun hp => ⟨⟨_, State.afterCall_of_done hp _⟩, ⟨_, State.afterCall_of_done hp _⟩, runSteps_done hp⟩⟩

/-- The Decryptor ends the call or starts a scan of at most the frame's length. -/
theorem OpenResult.done_or_scan {s t : State} (h : OpenResult s t) :
    t.phase = .done ∨ t.phase = .scan ∧ t.plen ≤ s.inp.frameLen := by
  cases h with
  | fatal kind => exact .inl rfl
  | unverified => exact .inl rfl
  | opened pt _ _ => exact .inr ⟨rfl, Nat.sub_le ..⟩

/-- The first step of a call ends it or starts a scan of at most the frame's length. -/
theorem step_idle_done_or_scan {s t : State} (hp : s.phase = .idle) (h : step s = .next t) :
    t.phase = .done ∨ t.phase = .scan ∧ t.plen ≤ s.inp.frameLen := by
  cases step_result h with
  | plain _ _ => exact .inr ⟨rfl, le_rfl⟩
  | enc _ _ ho => exact ho.done_or_scan
  | notApplicable _ _ _ => exact .inl rfl
  | rest hdone => exact .inl hdone
  | opening hother _ | cleanEnd hother _ | truncated hother _ _ | record hother _ _ _ _ => simp [hp] at hother

/-- The first step of a call completes if an encrypted frame is within the CCM bound (10 R35). -/
theorem step_idle_completes {s : State} (hp : s.phase = .idle)
    (hbound : s.inp.svcId = 0x181E → s.inp.frameLen < 2 ^ 24 + 8) : ∃ t, step s = .next t := by
  cases hs : step s with
  | next t => exact ⟨t, rfl⟩
  | fault f => exact absurd hs (stepNeverFaults s f)
  | refused r =>
    obtain ⟨-, hbig, hopening | ⟨-, henc⟩⟩ := stepRefusesOnlyOversizeFrames s r hs
    · simp [hp] at hopening
    · have := hbound henc
      omega

/-- Settles O16: the first step ends the call or starts a scan, which ends within a bound of its own (O15). -/
theorem everyCallEnds : Obligations.EveryCallEnds := by
  intro s hp hbound
  obtain ⟨t, hs⟩ := step_idle_completes hp hbound
  obtain hdone | ⟨hscan, hplen⟩ := step_idle_done_or_scan hp hs
  · exact ⟨1, t, by omega, runSteps_succ 0 hs, hdone⟩
  · obtain ⟨k, u, hk, hrun, hu⟩ := scanEndsWithinItsBound t hscan
    exact ⟨k + 1, u, by omega, (runSteps_succ k hs).trans hrun, hu⟩

end Sys2Proof.Machine
end
